-- ==== Sys2Proof/Config.lean ====
section
/-! DEFINITION. What one instance of HSE fixes: the three parameters of 00_scope.md R6 to R8, the widths R9 derives from them,
and the instance this model's `exec` and `step` run, HSE at its defaults. There is no free value: no behaviour of HSE is
left open once the three parameters are fixed (30_encoding.md R79, the last line of 92_eei_decisions.md). -/

namespace Sys2Proof

/-- The configuration record of 00_scope.md R9: "Nothing else differs between instances of HSE." -/
structure Config where
  /-- `SYM_W`, the width of a Symbol (R6). -/
  symW : Nat
  /-- `L_MAX`, the greatest codeword length an entry can hold (R7). -/
  lMax : Nat
  /-- `CNT_W`, the width of `SYMCNT` and `BITCNT` (R8). -/
  cntW : Nat
  deriving DecidableEq, Repr

/-- `LEN_W = ceil(log2(L_MAX + 1))` (R9): the number of binary digits of `L_MAX`. -/
abbrev Config.lenW (c : Config) : Nat := Nat.log2 c.lMax + 1

/-- `N_ENT = 2^SYM_W`, the number of table entries (R9). -/
abbrev Config.nEnt (c : Config) : Nat := 2 ^ c.symW

/-- `CMD_W = 4 + SYM_W + LEN_W + L_MAX`, the width of a command word (R9, 30_encoding.md R70). -/
def Config.cmdW (c : Config) : Nat := 4 + c.symW + c.lenW + c.lMax

/-- HSE at its defaults (R6, R7, R8): the value "this hardware takes when nothing else is said". -/
abbrev Config.hse : Config := ⟨8, 255, 32⟩

end Sys2Proof
end

