-- ==== Sys2Proof/Word.lean ====
section
/-! DEFINITION. The data the rules speak of: the words of the default instance, bit sequences with `seq_n` and `val`
(00_scope.md R12), and a command as its four fields (30_encoding.md R71). -/

namespace Sys2Proof

/-- A Symbol of the default instance (00_scope.md R6). -/
abbrev Sym := BitVec Config.hse.symW

/-- A `LEN` field of the default instance (30_encoding.md R71). -/
abbrev Len := BitVec Config.hse.lenW

/-- A `CODE` field of the default instance (30_encoding.md R71). -/
abbrev Code := BitVec Config.hse.lMax

/-- A command word of the default instance, 275 bits (30_encoding.md R70). -/
abbrev CmdWord := BitVec Config.hse.cmdW

/-- An opcode: the field `OP` (30_encoding.md R74). -/
abbrev Opcode := BitVec 4

/-- A bit sequence, first element first (00_scope.md R12); `true` is 1. -/
abbrev Bits := List Bool

/-- `val(q)`: the integer the sequence spells as a binary numeral, first bit most significant (00_scope.md R12). -/
def Bits.val : Bits → Nat
  | [] => 0
  | b :: q => b.toNat * 2 ^ q.length + Bits.val q

/-- `seq_n(v)`: the `n`-element sequence whose element `i` is `v[n-1-i]` (00_scope.md R12). -/
def seqBits {w : Nat} : Nat → BitVec w → Bits
  | 0, _ => []
  | n + 1, v => v.getLsbD n :: seqBits n v

/-- A command as its four fields (30_encoding.md R71); they tile the word. -/
structure Cmd (c : Config) where
  op : Opcode
  sym : BitVec c.symW
  len : BitVec c.lenW
  code : BitVec c.lMax
  deriving DecidableEq, Repr

end Sys2Proof
end

