-- ==== Sys2Proof/Syntax.lean ====
section
/-! DEFINITION. The seven commands of spec/opcode_table.json (30_encoding.md R74). Each carries all three operand fields of
format C: the ones a command does not use are ignored for its effect, but `SYM` is recorded on error entry (R75), and a
decoder that keeps them loses no bit of the word (R78). The reserved opcodes 0x7 to 0xF name no command (R77, R122) and
have no constructor: the decoder rejects them by name and the step gives them their effect. -/

namespace Sys2Proof

/-- A command of HSE-CMD 1.0, its fields `SYM`, `LEN`, `CODE` in this order. -/
inductive Instr where
  /-- `NOP` (42_control_commands.md R120). -/
  | nop (sym : Sym) (len : Len) (code : Code)
  /-- `CLRT` (40_table_commands.md R90). -/
  | clrt (sym : Sym) (len : Len) (code : Code)
  /-- `LOAD` (40_table_commands.md R91). -/
  | load (sym : Sym) (len : Len) (code : Code)
  /-- `START` (41_stream_commands.md R100). -/
  | start (sym : Sym) (len : Len) (code : Code)
  /-- `PUSH` (41_stream_commands.md R101). -/
  | push (sym : Sym) (len : Len) (code : Code)
  /-- `END` (41_stream_commands.md R102). -/
  | endStream (sym : Sym) (len : Len) (code : Code)
  /-- `ABORT` (42_control_commands.md R121). -/
  | abort (sym : Sym) (len : Len) (code : Code)
  deriving DecidableEq, Repr

end Sys2Proof
end

