-- ==== Sys2Proof/WellFormed.lean ====
section
/-! DEFINITION. The checks on configurations and on commands. The hardware itself refuses no field value: decoding and
execution are total (30_encoding.md R78, R79) and the field types hold exactly the values of the fields. What the spec calls
ill-formed is a configuration outside the constraints of 00_scope.md R9, and a command the assembler would not write,
one with a nonzero unused field (30_encoding.md R75). -/

namespace Sys2Proof

/-- The constraints `SYM_W >= 1`, `L_MAX >= 1`, `CNT_W >= 1` (00_scope.md R9). -/
def Config.wellFormed (c : Config) : Bool :=
  decide (1 ≤ c.symW) && decide (1 ≤ c.lMax) && decide (1 ≤ c.cntW)

/-- The command has zeros in every field it does not use, as the assembler writes it (30_encoding.md R74, R75). Its words
are the canonical ones; the other words of the same opcode execute alike. -/
def Instr.canonical : Instr → Bool
  | .nop sym len code | .clrt sym len code | .start sym len code
  | .endStream sym len code | .abort sym len code => sym == 0 && len == 0 && code == 0
  | .push _ len code => len == 0 && code == 0
  | .load _ _ _ => true

end Sys2Proof
end

