-- ==== Sys2Proof/Decode.lean ====
section
/-! DEFINITION. Format C (30_encoding.md R70 to R78): the fields of a command word, the decoder, total on every word and
rejecting reserved opcodes by name, the encoder, and the decoder on a word numbered as spec/opcode_table.json numbers it. -/

namespace Sys2Proof

/-- `decode(w)`: the fields at their positions, anchored at bit 0 (30_encoding.md R71, R78). -/
def Cmd.ofWord {c : Config} (w : BitVec c.cmdW) : Cmd c where
  op := w.extractLsb' 0 4
  sym := w.extractLsb' 4 c.symW
  len := w.extractLsb' (4 + c.symW) c.lenW
  code := w.extractLsb' (4 + c.symW + c.lenW) c.lMax

/-- `enc(op, sym, len, code) = op | sym << 4 | len << (4 + SYM_W) | code << (4 + SYM_W + LEN_W)` (30_encoding.md R76). -/
def Cmd.toWord {c : Config} (cmd : Cmd c) : BitVec c.cmdW :=
  cmd.op.setWidth c.cmdW ||| cmd.sym.setWidth c.cmdW <<< 4 |||
    cmd.len.setWidth c.cmdW <<< (4 + c.symW) ||| cmd.code.setWidth c.cmdW <<< (4 + c.symW + c.lenW)

/-- The opcode numbers (30_encoding.md R74). -/
def Instr.opcode : Instr → Opcode
  | .nop .. => 0x0
  | .clrt .. => 0x1
  | .load .. => 0x2
  | .start .. => 0x3
  | .push .. => 0x4
  | .endStream .. => 0x5
  | .abort .. => 0x6

/-- The `SYM` field a command carries. -/
def Instr.sym : Instr → Sym
  | .nop sym _ _ | .clrt sym _ _ | .load sym _ _ | .start sym _ _
  | .push sym _ _ | .endStream sym _ _ | .abort sym _ _ => sym

/-- The `LEN` field a command carries. -/
def Instr.len : Instr → Len
  | .nop _ len _ | .clrt _ len _ | .load _ len _ | .start _ len _
  | .push _ len _ | .endStream _ len _ | .abort _ len _ => len

/-- The `CODE` field a command carries. -/
def Instr.code : Instr → Code
  | .nop _ _ code | .clrt _ _ code | .load _ _ code | .start _ _ code
  | .push _ _ code | .endStream _ _ code | .abort _ _ code => code

/-- The four fields of a command. -/
def Instr.toCmd (i : Instr) : Cmd Config.hse := ⟨i.opcode, i.sym, i.len, i.code⟩

/-- What the decoder answers: a command of the opcode map, or the rejection of a word whose opcode is reserved, with the
word's fields (30_encoding.md R77). -/
inductive Decoded where
  | command (i : Instr)
  | reservedOpcode (cmd : Cmd Config.hse)
  deriving DecidableEq, Repr

/-- Which mnemonic by `OP` alone (30_encoding.md R74, R78): "no other bit takes part in selecting the command". -/
def decodeFields (cmd : Cmd Config.hse) : Decoded :=
  if cmd.op = 0x0 then .command (.nop cmd.sym cmd.len cmd.code)
  else if cmd.op = 0x1 then .command (.clrt cmd.sym cmd.len cmd.code)
  else if cmd.op = 0x2 then .command (.load cmd.sym cmd.len cmd.code)
  else if cmd.op = 0x3 then .command (.start cmd.sym cmd.len cmd.code)
  else if cmd.op = 0x4 then .command (.push cmd.sym cmd.len cmd.code)
  else if cmd.op = 0x5 then .command (.endStream cmd.sym cmd.len cmd.code)
  else if cmd.op = 0x6 then .command (.abort cmd.sym cmd.len cmd.code)
  else .reservedOpcode cmd

/-- The decoder, total on command words (30_encoding.md R78). -/
def decode (w : CmdWord) : Decoded := decodeFields (Cmd.ofWord w)

/-- The word of a command, from the encoding function of 30_encoding.md R76. -/
def encode (i : Instr) : CmdWord := i.toCmd.toWord

/-- The fields of what the decoder answered; with `Cmd.toWord` the `enc(decode(w))` of 30_encoding.md R78. -/
def Decoded.toCmd : Decoded → Cmd Config.hse
  | .command i => i.toCmd
  | .reservedOpcode cmd => cmd

/-- The command word that `w`, a number of `nbits` bits, is: none when it has a bit the command port has no wire for
(30_encoding.md R70: "no command is shorter, longer, compressed or prefixed"). The table's widest row has 275 bits, so a
row's width in whole bytes is 280, and the five bits above the word are zero. -/
def commandWord? (nbits w : Nat) : Option CmdWord :=
  let v := w % 2 ^ nbits
  if v < 2 ^ Config.hse.cmdW then some (BitVec.ofNat Config.hse.cmdW v) else none

/-- The command the decoder reads from the word `w`, bit 0 the least significant, as spec/opcode_table.json numbers it. -/
def decodeTableWord (nbits w : Nat) : Option Instr :=
  match commandWord? nbits w with
  | none => none
  | some word =>
    match decode word with
    | .command i => some i
    | .reservedOpcode _ => none

end Sys2Proof
end

