-- ==== Sys2Proof/Machine/State.lean ====
section
/-! DEFINITION. The state of the machine as plain data: the block's registers, table and ghosts (10_state.md R20 to R31) for
any configuration, the environment's inputs (00_scope.md R15, R16), the reset state (10_state.md R35), and the reasons a
step could stop. -/

namespace Sys2Proof.Machine

/-- `STATE` (10_state.md R21). The value 3 is never produced and a model's type should not contain it
(93_implementation_defined.md row 13). -/
inductive Phase where
  | idle
  | active
  | error
  deriving DecidableEq, Repr

/-- The cause recorded in `ERR` (10_state.md R25). `invalidInput` is the host's: no rule of HSE produces it
(60_exceptions.md R151). The values 6 and 7 are never produced (93_implementation_defined.md row 14). -/
inductive Cause where
  | none
  | invalidInput
  | missingCode
  | illegalOp
  | badSequence
  | badLength
  deriving DecidableEq, Repr

/-- One entry of the code table, the pair (`LEN`, `CODE`) (10_state.md R29). -/
structure Entry (c : Config) where
  len : BitVec c.lenW
  code : BitVec c.lMax
  deriving DecidableEq, Repr

/-- The empty entry, `LEN = 0` and `CODE = 0` (10_state.md R29): what reset leaves at every address (R35), and so what an
unlisted address of the table reads as. -/
def Entry.empty (c : Config) : Entry c := ⟨0, 0⟩

/-- The code table: the listed addresses with their entries. The canonical form is `Table.wf` of Machine/Ops.lean. -/
abbrev Table (c : Config) := List (Nat × Entry c)

/-- The whole state of the block (10_state.md R20: "the following, and nothing else"), with the ghosts of R31. -/
structure Hse (c : Config) where
  /-- `STATE` (R21). -/
  state : Phase
  /-- `ERR` (R25). -/
  err : Cause
  /-- `ERROP` (R26). -/
  errop : Opcode
  /-- `ERRSYM` (R26). -/
  errsym : BitVec c.symW
  /-- `SYMCNT` (R27). -/
  symcnt : BitVec c.cntW
  /-- `BITCNT` (R28). -/
  bitcnt : BitVec c.cntW
  /-- `TABLE` (R29). -/
  table : Table c
  /-- `SH` (R30). -/
  sh : BitVec c.lMax
  /-- `SHN` (R30). -/
  shn : BitVec c.lenW
  /-- Ghost `OUT`, every bit transferred since the last reset, oldest first (R31). -/
  out : Bits
  /-- Ghost `MARK`, `|OUT|` when the most recent `START` was accepted (R31). -/
  mark : Nat
  deriving DecidableEq, Repr

/-- The block right after reset: every value of 10_state.md R35. -/
def Hse.reset (c : Config) : Hse c where
  state := .idle
  err := .none
  errop := 0
  errsym := 0
  symcnt := 0
  bitcnt := 0
  table := []
  sh := 0
  shn := 0
  out := []
  mark := 0

/-- The input ports as seen at one rising edge of `clk` (70_reset_and_hazards.md R185): `cmd` is `some w` when
`cmd_valid = 1` and `cmd_data = w`, and `none` when `cmd_valid = 0`. -/
structure PortsIn (c : Config) where
  rst : Bool
  cmd : Option (BitVec c.cmdW)
  outReady : Bool
  deriving DecidableEq, Repr

/-- What one rising edge does (70_reset_and_hazards.md R186). -/
inductive Event (c : Config) where
  /-- The reset event (R180). -/
  | reset
  /-- One bit is transferred: the emit step (41_stream_commands.md R110). -/
  | transfer
  /-- The command word is accepted and executes (R187). -/
  | accept (w : BitVec c.cmdW)
  /-- Nothing changes. -/
  | quiet
  deriving DecidableEq, Repr

/-- What the host and the sink do at one edge (00_scope.md R15), command words apart: the level of `rst`, whether the host
offers its next command, and the level of `out_ready`. -/
structure EdgeLevels where
  rst : Bool
  offer : Bool
  outReady : Bool
  deriving DecidableEq, Repr

/-- The levels of an edge nothing is scheduled for: no reset, the host offers what it has, the sink is ready. DESIGN CHOICE
(log entry 2): 70_reset_and_hazards.md R196 says that "the intended sink always does" accept. -/
def EdgeLevels.plain : EdgeLevels := ⟨false, true, true⟩

/-- The machine: the block, and the two agents outside it, whose moves 00_scope.md R16 names as parameters of the step
relation and the model holds as plain data (log entry 2). -/
structure State where
  /-- The block, HSE at its defaults. -/
  hse : Hse Config.hse
  /-- The command words the host has still to issue, the next one first (R15, R19). -/
  cmds : List CmdWord
  /-- The levels at the coming edges, the next one first. -/
  edges : List EdgeLevels
  /-- The levels at every edge after those of `edges`. -/
  later : EdgeLevels
  deriving DecidableEq, Repr

/-- The machine right after reset: the block as 10_state.md R35 says, the host with nothing to issue, nothing scheduled
(log entry 2). -/
def State.reset : State where
  hse := Hse.reset Config.hse
  cmds := []
  edges := []
  later := EdgeLevels.plain

/-- Why the machine stops. The type has no constructor: every error of HSE is a recorded state from which the machine goes
on (60_exceptions.md R150, R160, R162), every address of the table exists (20_memory.md R51), and the sink that never
accepts leaves a machine whose steps change nothing and that a reset still gets out of (70_reset_and_hazards.md R196). Safe:
no step is cut short. -/
inductive Fault where
  deriving DecidableEq, Repr

/-- Why a command has no meaning. -/
inductive Refusal where
  /-- Raised by an arm of `exec` whose instruction has no meaning yet, with the instruction's mnemonic; no arm raises it.
  Safe: a claim about such an instruction could not be proved. -/
  | notModelled (mnemonic : String)
  deriving DecidableEq, Repr

end Sys2Proof.Machine
end

