-- ==== Sys2Proof/Machine/Flags.lean ====
section
/-! DEFINITION. The codes of the status registers, the two derived status signals, the two counters' advance, and the output
ports with the two handshakes (10_state.md R21, R25, R27, R28, R32, R33; 70_reset_and_hazards.md R185 to R191). HSE has no
arithmetic condition codes (R32). -/

namespace Sys2Proof.Machine

/-- The value of `STATE` (10_state.md R21). -/
def Phase.code : Phase → BitVec 2
  | .idle => 0
  | .active => 1
  | .error => 2

/-- The value of `ERR` (10_state.md R25). -/
def Cause.code : Cause → BitVec 3
  | .none => 0
  | .invalidInput => 1
  | .missingCode => 2
  | .illegalOp => 3
  | .badSequence => 4
  | .badLength => 5

/-- `st_busy = (SHN != 0)` (10_state.md R32). -/
def Hse.busy {c : Config} (h : Hse c) : Bool := h.shn != 0

/-- `irq = (STATE == ERROR)`, an unmasked level (10_state.md R32, 60_exceptions.md R157). -/
def Hse.irq {c : Config} (h : Hse c) : Bool := h.state == .error

/-- `cmd_ready = (rst == 0) and (SHN == 0)` (70_reset_and_hazards.md R188). -/
def Hse.cmdReady {c : Config} (rst : Bool) (h : Hse c) : Bool := !rst && h.shn == 0

/-- `out_valid = (rst == 0) and (SHN != 0)` (70_reset_and_hazards.md R190). -/
def Hse.outValid {c : Config} (rst : Bool) (h : Hse c) : Bool := !rst && h.shn != 0

/-- The next bit to leave, `SH[SHN-1]` (10_state.md R30). -/
def Hse.nextBit {c : Config} (h : Hse c) : Bool := h.sh.getLsbD (h.shn.toNat - 1)

/-- Both counters advance for a codeword of length `len`, modulo `2^CNT_W`, with no overflow flag (10_state.md R27, R28;
30_encoding.md R72 for `zext_CNT_W(LEN)`). DEDUCED (log entry 6): where `CNT_W < LEN_W`, the sum is still taken modulo
`2^CNT_W`. -/
def Hse.count {c : Config} (len : BitVec c.lenW) (h : Hse c) : Hse c :=
  { h with symcnt := h.symcnt + 1, bitcnt := h.bitcnt + len.setWidth c.cntW }

/-- The status ports (70_reset_and_hazards.md R185, 10_state.md R33). -/
structure StatusPorts (c : Config) where
  stState : BitVec 2
  stErr : BitVec 3
  stErrop : BitVec 4
  stErrsym : BitVec c.symW
  stSymcnt : BitVec c.cntW
  stBitcnt : BitVec c.cntW
  stBusy : Bool
  irq : Bool
  deriving DecidableEq, Repr

/-- The output ports (70_reset_and_hazards.md R185). `outBit` is `none` while `out_valid = 0`, when `out_bit` is not
meaningful (R190, 93_implementation_defined.md row 17; log entry 8). The status ports are continuously driven (10_state.md
R33). -/
structure PortsOut (c : Config) where
  cmdReady : Bool
  outValid : Bool
  outBit : Option Bool
  status : StatusPorts c
  deriving DecidableEq, Repr

/-- The current value of every status register (10_state.md R33, 70_reset_and_hazards.md R191); reading it changes nothing. -/
def Hse.statusPorts {c : Config} (h : Hse c) : StatusPorts c where
  stState := h.state.code
  stErr := h.err.code
  stErrop := h.errop
  stErrsym := h.errsym
  stSymcnt := h.symcnt
  stBitcnt := h.bitcnt
  stBusy := h.busy
  irq := h.irq

/-- What the output ports show at the level `rst` (10_state.md R33, 70_reset_and_hazards.md R181, R188, R190, R191). -/
def Hse.ports {c : Config} (rst : Bool) (h : Hse c) : PortsOut c where
  cmdReady := h.cmdReady rst
  outValid := h.outValid rst
  outBit := if h.outValid rst then some h.nextBit else none
  status := h.statusPorts

end Sys2Proof.Machine
end

