-- ==== Sys2Proof/Machine/Ops.lean ====
section
/-! DEFINITION. The named operations every rule is written with: the code table's read and write, error entry and the return
from it, the check of the phase a command is legal in, the emit step, what one clock edge does, and the moves of the two
agents outside the block. -/

namespace Sys2Proof.Machine

variable {c : Config}

/-- `TABLE[a]`: the entry listed at the address `a`, or the empty entry (20_memory.md R50, R53). -/
def Table.read : Table c → Nat → Entry c
  | [], _ => Entry.empty c
  | cell :: t, a => if a = cell.1 then cell.2 else Table.read t a

/-- `TABLE[a] <- e`, one whole entry (20_memory.md R53, R55). Addresses stay in rising order, and writing the empty entry
removes the cell, so that equal tables are equal lists. -/
def Table.write : Table c → Nat → Entry c → Table c
  | [], a, e => if e = Entry.empty c then [] else [(a, e)]
  | cell :: t, a, e =>
    if a < cell.1 then if e = Entry.empty c then cell :: t else (a, e) :: cell :: t
    else if a = cell.1 then if e = Entry.empty c then t else (a, e) :: t
    else cell :: Table.write t a e

/-- The canonical form of the table: addresses strictly rising, each below `N_ENT` (20_memory.md R50, R51), no listed entry
equal to the empty one. -/
abbrev Table.wf (t : Table c) : Prop :=
  t.Pairwise (fun x y => x.1 < y.1) ∧ ∀ cell ∈ t, cell.1 < c.nEnt ∧ cell.2 ≠ Entry.empty c

/-- `TABLE[s]` for a symbol `s`: the symbol is the address (20_memory.md R50, 30_encoding.md R72). -/
def Hse.entry (h : Hse c) (sym : BitVec c.symW) : Entry c := Table.read h.table sym.toNat

/-- `TABLE[s] <- e` (20_memory.md R50). -/
def Hse.setEntry (sym : BitVec c.symW) (e : Entry c) (h : Hse c) : Hse c :=
  { h with table := Table.write h.table sym.toNat e }

/-- Every entry becomes empty, as one step (20_memory.md R53, 40_table_commands.md R90). -/
def Hse.emptyTable (h : Hse c) : Hse c := { h with table := [] }

/-- Error entry with a cause, for the command being executed (60_exceptions.md R160): these four registers "and nothing
else". -/
def Hse.raise (cause : Cause) (cmd : Cmd c) (h : Hse c) : Hse c :=
  { h with err := cause, errop := cmd.op, errsym := cmd.sym, state := .error }

/-- The return to IDLE, which restores nothing (60_exceptions.md R165, 42_control_commands.md R121). -/
def Hse.clearError (h : Hse c) : Hse c :=
  { h with state := .idle, err := .none, errop := 0, errsym := 0 }

/-- A command legal in the phase `p` only (10_state.md R22): discarded in ERROR (60_exceptions.md R162), BAD_SEQUENCE in the
other phase (R154), its own effect in `p`. The order is that of R158. -/
def Hse.legalIn (p : Phase) (cmd : Cmd c) (effect : Hse c → Hse c) (h : Hse c) : Hse c :=
  if h.state = .error then h
  else if h.state = p then effect h
  else h.raise .badSequence cmd

/-- The emit step (41_stream_commands.md R110), for a block with pending bits. -/
def Hse.emit (h : Hse c) : Hse c :=
  { h with out := h.out ++ [h.nextBit], shn := h.shn - 1 }

/-- `n` emit steps, one after the other. -/
def Hse.emitTimes : Nat → Hse c → Hse c
  | 0, h => h
  | n + 1, h => Hse.emitTimes n h.emit

/-- The emit steps that transfer every pending bit (41_stream_commands.md R110, R111). -/
def Hse.drain (h : Hse c) : Hse c := Hse.emitTimes h.shn.toNat h

/-- What a rising edge does for given inputs: reset wins (70_reset_and_hazards.md R181), a bit is transferred when
`out_valid` and `out_ready` are 1 (R190), a command is accepted when `cmd_valid` and `cmd_ready` are 1 (R187). -/
def Hse.event (p : PortsIn c) (h : Hse c) : Event c :=
  if p.rst then .reset
  else if h.outValid p.rst && p.outReady then .transfer
  else
    match p.cmd with
    | none => .quiet
    | some w => if h.cmdReady p.rst then .accept w else .quiet

/-- The levels at the coming edge. -/
def State.now (s : State) : EdgeLevels :=
  match s.edges with
  | [] => s.later
  | e :: _ => e

/-- The input ports at the coming edge. The host offers its next command word and holds it until it is accepted
(70_reset_and_hazards.md R187, 00_scope.md R19). -/
def State.portsIn (s : State) : PortsIn Config.hse where
  rst := s.now.rst
  cmd := if s.now.offer then s.cmds.head? else none
  outReady := s.now.outReady

/-- What the coming edge does. -/
def State.event (s : State) : Event Config.hse := s.hse.event s.portsIn

/-- The agents outside the block after an edge at which no command was accepted. -/
def State.pastEdge (s : State) : State := { s with edges := s.edges.tail }

/-- The agents outside the block after an edge at which the offered command was accepted. -/
def State.pastCommand (s : State) : State := { s with cmds := s.cmds.tail, edges := s.edges.tail }

/-- An effect on the block alone. -/
def State.onBlock (f : Hse Config.hse → Hse Config.hse) (s : State) : State := { s with hse := f s.hse }

/-- An edge with `rst = 1` (70_reset_and_hazards.md R180, R181, R182). -/
def State.takeReset (s : State) : State := s.pastEdge.onBlock fun _ => Hse.reset Config.hse

/-- An edge at which a bit is transferred (70_reset_and_hazards.md R190). -/
def State.takeTransfer (s : State) : State := s.pastEdge.onBlock Hse.emit

/-- A command word placed as the host's next one, with the coming edge's levels letting the host offer it. -/
def State.offerNext (w : CmdWord) (s : State) : State :=
  { s with
    cmds := w :: s.cmds.tail
    edges := { s.now with rst := false, offer := true } :: s.edges.tail }

end Sys2Proof.Machine
end

