-- ==== Sys2Proof/Machine/Operands.lean ====
section
/-! DEFINITION. The operand forms: the codeword operand of `LOAD` (30_encoding.md R73) with the lengths it may have
(40_table_commands.md R91), the symbol operand and its lookup (20_memory.md R56), and the pair that a codeword is held as
(20_memory.md R57). -/

namespace Sys2Proof.Machine

variable {c : Config}

/-- `zext_L_MAX(CODE[n-1:0])`: the low `n` bits, zeros above (40_table_commands.md R91, 30_encoding.md R73). -/
def lowBits {w : Nat} (n : Nat) (code : BitVec w) : BitVec w := BitVec.ofNat w (code.toNat % 2 ^ n)

/-- The lengths `LOAD` accepts: `1 <= LEN <= L_MAX` (40_table_commands.md R91, 60_exceptions.md R155). -/
def lengthOk (c : Config) (len : BitVec c.lenW) : Bool := decide (1 ≤ len.toNat) && decide (len.toNat ≤ c.lMax)

/-- The entry a `LOAD` writes: `LEN`, and `CODE` with zeros at and above position `LEN` (40_table_commands.md R91). -/
def Cmd.entry (cmd : Cmd c) : Entry c := ⟨cmd.len, lowBits cmd.len.toNat cmd.code⟩

/-- The codeword an entry holds: none when `LEN = 0`, else `seq_n(CODE[n-1:0])` (20_memory.md R56, 10_state.md R29). -/
def Entry.codeword (e : Entry c) : Option Bits :=
  if e.len = 0 then none else some (seqBits e.len.toNat e.code)

/-- `lookup(s)` (20_memory.md R56). -/
def Hse.lookup (h : Hse c) (sym : BitVec c.symW) : Option Bits := (h.entry sym).codeword

/-- The pending bits, `seq_SHN(SH[SHN-1:0])` (10_state.md R30). -/
def Hse.pending (h : Hse c) : Bits := seqBits h.shn.toNat h.sh

/-- The bits transferred since the most recent `START`, `OUT[MARK .. |OUT|-1]` (00_scope.md R17, 10_state.md R31). They are
the stream's result only if the stream completed (60_exceptions.md R164). -/
def Hse.sinceStart (h : Hse c) : Bits := h.out.drop h.mark

end Sys2Proof.Machine
end

