-- ==== Sys2Proof/Machine/ControlCommands.lean ====
section
/-! DEFINITION. `NOP`, `ABORT` and the reserved opcodes (42_control_commands.md R120, R121, R122), for any configuration and
as the meanings of `exec` and of the step. -/

namespace Sys2Proof.Machine

variable {c : Config}

/-- A word with a reserved opcode (42_control_commands.md R122): discarded in ERROR, ILLEGAL_OP otherwise, before any check
of the phase (60_exceptions.md R158). -/
def Hse.reservedOp (cmd : Cmd c) (h : Hse c) : Hse c :=
  if h.state = .error then h else h.raise .illegalOp cmd

/-- `NOP` accepted (42_control_commands.md R120): nothing, in every state. -/
def execNop (_sym : Sym) (_len : Len) (_code : Code) (s : State) : Host.Outcome State Fault Refusal := .next s

/-- `ABORT` accepted (42_control_commands.md R121): legal in every state, never raises. -/
def execAbort (_sym : Sym) (_len : Len) (_code : Code) (s : State) : Host.Outcome State Fault Refusal :=
  .next (s.onBlock Hse.clearError)

/-- A word with a reserved opcode accepted (42_control_commands.md R122). -/
def execReserved (cmd : Cmd Config.hse) (s : State) : Host.Outcome State Fault Refusal :=
  .next (s.onBlock (Hse.reservedOp cmd))

end Sys2Proof.Machine
end

