-- ==== Sys2Proof/Machine/StreamCommands.lean ====
section
/-! DEFINITION. `START`, `PUSH` and `END` (41_stream_commands.md R100, R101, R102), for any configuration and as the meanings
of `exec`; and the atomic reading of `PUSH` (R111), which the machine does not use. -/

namespace Sys2Proof.Machine

variable {c : Config}

/-- The effect of `START` in IDLE (41_stream_commands.md R100). -/
def Hse.openStream (h : Hse c) : Hse c :=
  { h with state := .active, symcnt := 0, bitcnt := 0, mark := h.out.length }

/-- `START` (41_stream_commands.md R100). -/
def Hse.start (cmd : Cmd c) (h : Hse c) : Hse c := h.legalIn .idle cmd Hse.openStream

/-- The effect of `PUSH` on a hit: the codeword is queued and counted (41_stream_commands.md R101). -/
def Hse.queue (e : Entry c) (h : Hse c) : Hse c := { h.count e.len with sh := e.code, shn := e.len }

/-- The effect of `PUSH` in ACTIVE: a symbol with no entry raises MISSING_CODE (41_stream_commands.md R101,
60_exceptions.md R152). -/
def Hse.pushActive (cmd : Cmd c) (h : Hse c) : Hse c :=
  if (h.entry cmd.sym).len = 0 then h.raise .missingCode cmd else h.queue (h.entry cmd.sym)

/-- `PUSH` (41_stream_commands.md R101). Its `n` emit steps are steps of their own (R110). -/
def Hse.push (cmd : Cmd c) (h : Hse c) : Hse c := h.legalIn .active cmd (Hse.pushActive cmd)

/-- `PUSH` with its emit steps as one atomic step (41_stream_commands.md R111), for a sink that accepts every bit. -/
def Hse.pushAtomic (cmd : Cmd c) (h : Hse c) : Hse c :=
  h.legalIn .active cmd fun h =>
    match h.lookup cmd.sym with
    | none => h.raise .missingCode cmd
    | some q => { h.count (h.entry cmd.sym).len with out := h.out ++ q, sh := (h.entry cmd.sym).code, shn := 0 }

/-- The effect of `END` in ACTIVE (41_stream_commands.md R102). -/
def Hse.closeStream (h : Hse c) : Hse c := { h with state := .idle }

/-- `END` (41_stream_commands.md R102). -/
def Hse.endStream (cmd : Cmd c) (h : Hse c) : Hse c := h.legalIn .active cmd Hse.closeStream

/-- `START` accepted (41_stream_commands.md R100). -/
def execStart (sym : Sym) (len : Len) (code : Code) (s : State) : Host.Outcome State Fault Refusal :=
  .next (s.onBlock (Hse.start (Instr.start sym len code).toCmd))

/-- `PUSH` accepted (41_stream_commands.md R101). -/
def execPush (sym : Sym) (len : Len) (code : Code) (s : State) : Host.Outcome State Fault Refusal :=
  .next (s.onBlock (Hse.push (Instr.push sym len code).toCmd))

/-- `END` accepted (41_stream_commands.md R102). -/
def execEndStream (sym : Sym) (len : Len) (code : Code) (s : State) : Host.Outcome State Fault Refusal :=
  .next (s.onBlock (Hse.endStream (Instr.endStream sym len code).toCmd))

end Sys2Proof.Machine
end

