-- ==== Sys2Proof/Machine/TableCommands.lean ====
section
/-! DEFINITION. `CLRT` and `LOAD` (40_table_commands.md R90, R91), for any configuration and as the meanings of `exec`. Neither
checks the table beyond the length (R92), and a one-symbol alphabet is no special case (R93). -/

namespace Sys2Proof.Machine

variable {c : Config}

/-- `CLRT` (40_table_commands.md R90). -/
def Hse.clearTable (cmd : Cmd c) (h : Hse c) : Hse c := h.legalIn .idle cmd Hse.emptyTable

/-- `LOAD` (40_table_commands.md R91): BAD_SEQUENCE before BAD_LENGTH (60_exceptions.md R158). -/
def Hse.loadEntry (cmd : Cmd c) (h : Hse c) : Hse c :=
  h.legalIn .idle cmd fun h => if lengthOk c cmd.len then h.setEntry cmd.sym (Cmd.entry cmd) else h.raise .badLength cmd

/-- `CLRT` accepted (40_table_commands.md R90). -/
def execClrt (sym : Sym) (len : Len) (code : Code) (s : State) : Host.Outcome State Fault Refusal :=
  .next (s.onBlock (Hse.clearTable (Instr.clrt sym len code).toCmd))

/-- `LOAD` accepted (40_table_commands.md R91). -/
def execLoad (sym : Sym) (len : Len) (code : Code) (s : State) : Host.Outcome State Fault Refusal :=
  .next (s.onBlock (Hse.loadEntry (Instr.load sym len code).toCmd))

end Sys2Proof.Machine
end

