-- ==== Sys2Proof/Machine/Dispatch.lean ====
section
/-! DEFINITION. One arm per command: the effect of an accepted command (30_encoding.md R74). -/

namespace Sys2Proof.Machine

def exec (i : Instr) (s : State) : Host.Outcome State Fault Refusal :=
  match i with
  | .nop sym len code => Sys2Proof.Machine.execNop sym len code s
  | .clrt sym len code => Sys2Proof.Machine.execClrt sym len code s
  | .load sym len code => Sys2Proof.Machine.execLoad sym len code s
  | .start sym len code => Sys2Proof.Machine.execStart sym len code s
  | .push sym len code => Sys2Proof.Machine.execPush sym len code s
  | .endStream sym len code => Sys2Proof.Machine.execEndStream sym len code s
  | .abort sym len code => Sys2Proof.Machine.execAbort sym len code s

end Sys2Proof.Machine
end

