-- ==== Sys2Proof/Machine/Step.lean ====
section
/-! DEFINITION. One step of the machine, one rising edge of `clk` (70_reset_and_hazards.md R186), and the placing of a command
word for the next step. -/

namespace Sys2Proof.Machine

/-- One rising edge: the reset event (70_reset_and_hazards.md R181), a transferred bit (41_stream_commands.md R110), an
accepted command executed whole (70_reset_and_hazards.md R187), or nothing. -/
def step (s : State) : Host.Outcome State Fault Refusal :=
  match s.event with
  | .reset => .next s.takeReset
  | .transfer => .next s.takeTransfer
  | .quiet => .next s.pastEdge
  | .accept w =>
    match decode w with
    | .command i => exec i s.pastCommand
    | .reservedOpcode cmd => execReserved cmd s.pastCommand

/-- The state with the word `w` as the host's next command, offered at the coming edge, so that the next step of a block with
no pending bit accepts and runs it (70_reset_and_hazards.md R187, R188). A number with a bit beyond the command port's wires
is no command word and places nothing (log entry 4). -/
def State.withFetchWord (s : State) (nbits w : Nat) : State :=
  match commandWord? nbits w with
  | none => s
  | some word => s.offerNext word

end Sys2Proof.Machine
end

