-- ==== Sys2Proof/Machine/Assembler.lean ====
section
/-! DEFINITION. The assembler's lines, the pseudo-instructions and the words they stand for (30_encoding.md R80 to R83), at the
default parameters. It is a way of writing command words; the hardware holds none of it. -/

namespace Sys2Proof.Machine

/-- One line of assembly (30_encoding.md R80): a symbol is its number, bits are a sequence. -/
inductive AsmLine where
  | nop
  | clrt
  | load (sym : Nat) (bits : Bits)
  | start
  | push (sym : Nat)
  | endStream
  | abort
  | word (value : Nat)
  deriving DecidableEq, Repr

/-- The operand ranges: a symbol `0 .. N_ENT-1` (30_encoding.md R81), at most `2^LEN_W - 1` bits (R82), a word of `CMD_W`
bits (R70). -/
def AsmLine.wellFormed : AsmLine → Bool
  | .load sym bits => decide (sym < Config.hse.nEnt) && decide (bits.length ≤ 2 ^ Config.hse.lenW - 1)
  | .push sym => decide (sym < Config.hse.nEnt)
  | .word value => decide (value < 2 ^ Config.hse.cmdW)
  | .nop | .clrt | .start | .endStream | .abort => true

/-- The `LOAD` of a codeword: `LEN = |bits|`, `CODE = val(bits)` (30_encoding.md R73, R82). -/
def loadBits (sym : Sym) (bits : Bits) : Instr :=
  .load sym (BitVec.ofNat Config.hse.lenW bits.length) (BitVec.ofNat Config.hse.lMax bits.val)

/-- A line's command word, with zeros in the unused fields (30_encoding.md R75, R80). -/
def AsmLine.assemble : AsmLine → CmdWord
  | .nop => encode (.nop 0 0 0)
  | .clrt => encode (.clrt 0 0 0)
  | .load sym bits => encode (loadBits (BitVec.ofNat Config.hse.symW sym) bits)
  | .start => encode (.start 0 0 0)
  | .push sym => encode (.push (BitVec.ofNat Config.hse.symW sym) 0 0)
  | .endStream => encode (.endStream 0 0 0)
  | .abort => encode (.abort 0 0 0)
  | .word value => BitVec.ofNat Config.hse.cmdW value

/-- The number a character in quotes stands for, its ASCII code (30_encoding.md R81). PRESUMED (log entry 12): the code of a
character is its `Char` number; the spec marks ASCII as general knowledge. -/
def charSym (ch : Char) : Nat := ch.toNat

/-- `TABLE { s1: b1, ... }` (30_encoding.md R83). -/
def tableLines (entries : List (Nat × Bits)) : List AsmLine :=
  .clrt :: entries.map fun e => .load e.1 e.2

/-- `ENCODE` of a sequence of symbols (30_encoding.md R83). -/
def encodeLines (symbols : List Nat) : List AsmLine :=
  .start :: symbols.map .push ++ [.endStream]

/-- `ENCODE "x1 x2 ... xn"` (30_encoding.md R83). -/
def encodeText (text : List Char) : List AsmLine := encodeLines (text.map charSym)

/-- The command words of a program, in order. -/
def assembleAll (lines : List AsmLine) : List CmdWord := lines.map AsmLine.assemble

end Sys2Proof.Machine
end

