-- ==== Sys2Proof/Machine/Pipeline.lean ====
section
/-! DEFINITION. The host's software that feeds the block (43_host_side_pipeline.md R130 to R143, R148): FrequencyCounter,
HuffmanTreeBuilder, CodeTableBuilder, the Encoder's contract as a function, and the commands of one `encode` call. None of it is
hardware (00_scope.md R3); the block assumes none of it (40_table_commands.md R92). What the source leaves to the
implementation is the parameter `BuildChoices` (93_implementation_defined.md rows 1 to 5). -/

namespace Sys2Proof.Machine

/-- A FrequencyTable, one entry per distinct symbol (43_host_side_pipeline.md R132). -/
abbrev FrequencyTable := List (Sym × Nat)

/-- A CodeTable as the builder lists it (43_host_side_pipeline.md R139). -/
abbrev CodeTable := List (Sym × Bits)

/-- One more occurrence of a symbol (43_host_side_pipeline.md R131). -/
def addOccurrence (x : Sym) : FrequencyTable → FrequencyTable
  | [] => [(x, 1)]
  | (y, n) :: t => if x = y then (y, n + 1) :: t else (y, n) :: addOccurrence x t

/-- FrequencyCounter, scanning left to right once (43_host_side_pipeline.md R131); entries stand in the order of first
appearance. The contract promises no order: `BuildChoices.freqOrder` gives the one an implementation iterates in. -/
def countFrequencies (input : List Sym) : FrequencyTable := input.foldl (fun t x => addOccurrence x t) []

/-- A TreeNode (43_host_side_pipeline.md R134). -/
inductive TreeNode where
  | leaf (sym : Sym) (freq : Nat)
  | node (freq : Nat) (left right : TreeNode)
  deriving DecidableEq, Repr

/-- The frequency a node holds (43_host_side_pipeline.md R134). -/
def TreeNode.freq : TreeNode → Nat
  | .leaf _ n => n
  | .node n _ _ => n

/-- What the source leaves to the implementation: the order of iteration over the FrequencyTable (43_host_side_pipeline.md
R131), the order among equal frequencies (R137), given on the numbers of the nodes, which extracted node becomes the left
child (R136), the bit of the left branch (R139), the bit of a lone symbol (R140), and the order of the `LOAD`s (R143). -/
structure BuildChoices where
  freqOrder : FrequencyTable → FrequencyTable
  freqOrder_perm : ∀ t, (freqOrder t).Perm t
  precedes : Nat → Nat → Bool
  firstIsLeft : Bool
  leftBit : Bool
  loneBit : Bool
  loadOrder : CodeTable → CodeTable
  loadOrder_perm : ∀ t, (loadOrder t).Perm t

/-- The instance of the choices that the spec's example tables use, binding nobody (43_host_side_pipeline.md R148). -/
def BuildChoices.examples : BuildChoices where
  freqOrder t := t
  freqOrder_perm _ := .refl _
  precedes a b := decide (a < b)
  firstIsLeft := true
  leftBit := true
  loneBit := false
  loadOrder t := t
  loadOrder_perm _ := .refl _

/-- A node of the priority collection with its number: leaves are numbered in the order of iteration, and each new
internal node takes the next number. -/
structure QueueNode where
  number : Nat
  tree : TreeNode
  deriving DecidableEq, Repr

/-- The order of the priority collection: frequency, then the tie-break (43_host_side_pipeline.md R135, R137). -/
def BuildChoices.before (ch : BuildChoices) (a b : QueueNode) : Bool :=
  decide (a.tree.freq < b.tree.freq) || (a.tree.freq == b.tree.freq && ch.precedes a.number b.number)

/-- The least node of `best :: rest`, and the others (43_host_side_pipeline.md R135). -/
def extractMin (ch : BuildChoices) : QueueNode → List QueueNode → QueueNode × List QueueNode
  | best, [] => (best, [])
  | best, x :: rest =>
    if ch.before x best then ((extractMin ch x rest).1, best :: (extractMin ch x rest).2)
    else ((extractMin ch best rest).1, x :: (extractMin ch best rest).2)

/-- The internal node over two extracted nodes (43_host_side_pipeline.md R135, R136). -/
def BuildChoices.join (ch : BuildChoices) (first second : TreeNode) : TreeNode :=
  if ch.firstIsLeft then .node (first.freq + second.freq) first second
  else .node (first.freq + second.freq) second first

/-- The merge loop over `q :: rest`, whose new nodes take the numbers from `next` on (43_host_side_pipeline.md R135). A
collection of `n + 1` nodes needs `n` merges, the fuel. -/
def mergeLoop (ch : BuildChoices) : Nat → Nat → QueueNode → List QueueNode → TreeNode
  | 0, _, q, _ => q.tree
  | n + 1, next, q, rest =>
    match extractMin ch q rest with
    | (first, []) => first.tree
    | (first, r :: others) =>
      mergeLoop ch n (next + 1) ⟨next, ch.join first.tree (extractMin ch r others).1.tree⟩ (extractMin ch r others).2

/-- The leaves of a FrequencyTable, numbered from `next` on. -/
def leafNodes : Nat → FrequencyTable → List QueueNode
  | _, [] => []
  | next, (s, n) :: t => ⟨next, .leaf s n⟩ :: leafNodes (next + 1) t

/-- HuffmanTreeBuilder: it fails on an empty table (InvalidInput, 43_host_side_pipeline.md R133) and answers the root
otherwise (R135, R138). -/
def buildTree (ch : BuildChoices) (t : FrequencyTable) : Except Cause TreeNode :=
  match leafNodes 0 t with
  | [] => .error .invalidInput
  | q :: rest => .ok (mergeLoop ch rest.length t.length q rest)

/-- The depth-first traversal with its accumulated bits (43_host_side_pipeline.md R139). -/
def TreeNode.codewords (ch : BuildChoices) : TreeNode → Bits → CodeTable
  | .leaf s _, acc => [(s, acc)]
  | .node _ l r, acc => l.codewords ch (acc ++ [ch.leftBit]) ++ r.codewords ch (acc ++ [!ch.leftBit])

/-- CodeTableBuilder, with the one bit of a lone leaf (43_host_side_pipeline.md R139, R140). -/
def buildCodeTable (ch : BuildChoices) : TreeNode → CodeTable
  | .leaf s _ => [(s, [ch.loneBit])]
  | t => t.codewords ch []

/-- The three host stages on one input (43_host_side_pipeline.md R130, R133). -/
def codeTableOf (ch : BuildChoices) (input : List Sym) : Except Cause CodeTable :=
  match buildTree ch (ch.freqOrder (countFrequencies input)) with
  | .error e => .error e
  | .ok root => .ok (buildCodeTable ch root)

/-- A symbol's codeword in a CodeTable. -/
def CodeTable.code? : CodeTable → Sym → Option Bits
  | [], _ => none
  | (y, q) :: t, x => if x = y then some q else CodeTable.code? t x

/-- The Encoder's contract as a function (41_stream_commands.md, its opening quotation; 43_host_side_pipeline.md R130): the
concatenation of the codewords in order, or MissingCode. -/
def CodeTable.encode (t : CodeTable) : List Sym → Except Cause Bits
  | [] => .ok []
  | x :: xs =>
    match t.code? x with
    | none => .error .missingCode
    | some q =>
      match CodeTable.encode t xs with
      | .error e => .error e
      | .ok bits => .ok (q ++ bits)

/-- The commands of step 4 of the host procedure (43_host_side_pipeline.md R143): `CLRT`, then one `LOAD` per entry, in the
order listed. -/
def CodeTable.loadCommands (t : CodeTable) : List Instr := .clrt 0 0 0 :: t.map fun e => loadBits e.1 e.2

/-- The commands of step 5 of the host procedure (43_host_side_pipeline.md R143). -/
def streamCommands (input : List Sym) : List Instr :=
  .start 0 0 0 :: input.map (fun x => .push x 0 0) ++ [.endStream 0 0 0]

/-- Steps 1 to 5 of one `encode` call: the CodeTable and the commands the host issues, the `LOAD`s in any order, or InvalidInput
before any command (43_host_side_pipeline.md R133, R143). Step 6 is in Machine/EncodeCall.lean. -/
def encodeCall (ch : BuildChoices) (input : List Sym) : Except Cause (CodeTable × List Instr) :=
  match codeTableOf ch input with
  | .error e => .error e
  | .ok t => .ok (t, (ch.loadOrder t).loadCommands ++ streamCommands input)

end Sys2Proof.Machine
end

