-- ==== Sys2Proof/Machine/Transactions.lean ====
section
/-! DEFINITION. The block alone, at any configuration (00_scope.md R6 to R9): the effect of an accepted word, one rising edge of
`clk`, and the transaction level of 00_scope.md R10, where every command is followed by all its emit steps
(41_stream_commands.md R111). `exec` and `step` are the block at its defaults; claims say that the two agree. -/

namespace Sys2Proof.Machine

variable {c : Config}

/-- The effect of an accepted command word, total on words (30_encoding.md R74, R79). -/
def Hse.accept (w : BitVec c.cmdW) (h : Hse c) : Hse c :=
  let cmd : Cmd c := Cmd.ofWord w
  if cmd.op = 0x0 then h
  else if cmd.op = 0x1 then h.clearTable cmd
  else if cmd.op = 0x2 then h.loadEntry cmd
  else if cmd.op = 0x3 then h.start cmd
  else if cmd.op = 0x4 then h.push cmd
  else if cmd.op = 0x5 then h.endStream cmd
  else if cmd.op = 0x6 then h.clearError
  else h.reservedOp cmd

/-- The block after one rising edge with the given inputs (70_reset_and_hazards.md R186). -/
def Hse.edge (p : PortsIn c) (h : Hse c) : Hse c :=
  match h.event p with
  | .reset => Hse.reset c
  | .transfer => h.emit
  | .accept w => h.accept w
  | .quiet => h

/-- Command words one after the other, each accepted once every pending bit has left, and the last one's bits with them
(41_stream_commands.md R111, 20_memory.md R59). -/
def Hse.runWords : List (BitVec c.cmdW) → Hse c → Hse c
  | [], h => h.drain
  | w :: ws, h => Hse.runWords ws (h.drain.accept w)

/-- The Encoder's result on a sequence of symbols: the concatenation of the codewords, if every symbol has one
(41_stream_commands.md R104). -/
def Hse.encoderOutput (h : Hse c) : List (BitVec c.symW) → Option Bits
  | [] => some []
  | x :: xs =>
    match h.lookup x, Hse.encoderOutput h xs with
    | some q, some rest => some (q ++ rest)
    | _, _ => none

/-- The symbols that the commands between a `START` and its `END` push, if those commands are `PUSH`es and `NOP`s only
(41_stream_commands.md R104). -/
def pushedSymbols : List Instr → Option (List Sym)
  | [] => some []
  | .nop _ _ _ :: rest => pushedSymbols rest
  | .push sym _ _ :: rest => (pushedSymbols rest).map (sym :: ·)
  | .clrt _ _ _ :: _ | .load _ _ _ :: _ | .start _ _ _ :: _ | .endStream _ _ _ :: _ | .abort _ _ _ :: _ => none

end Sys2Proof.Machine
end

