-- ==== Sys2Proof/Safety.lean ====
section
/-! DEFINITION. What claims are stated in: the invariants of 10_state.md R34, the end of a stream (00_scope.md R17), the stuck
condition (70_reset_and_hazards.md R196) and the environments in which a program runs to its end. -/

namespace Sys2Proof.Machine

variable {c : Config}

/-- R34 items 1 and 2: `ERR` is never INVALID_INPUT; `STATE = ERROR` exactly when `ERR != 0`; the two record registers are 0
when no error is recorded. (That `STATE` is 0, 1 or 2 and `ERR` at most 5 is their types'.) -/
abbrev Hse.errorOk (h : Hse c) : Prop :=
  h.err ≠ .invalidInput ∧ (h.state = .error ↔ h.err ≠ .none) ∧ (h.err = .none → h.errop = 0 ∧ h.errsym = 0)

/-- R34 item 3 for one entry: `LEN <= L_MAX`, and `CODE` is 0 at and above position `LEN`. -/
abbrev Entry.ok (e : Entry c) : Prop := e.len.toNat ≤ c.lMax ∧ e.code.toNat < 2 ^ e.len.toNat

/-- R34 item 3 for the listed entries (the others read as the empty one), with the table's canonical form. -/
abbrev Hse.tableOk (h : Hse c) : Prop := Table.wf h.table ∧ ∀ cell ∈ h.table, Entry.ok cell.2

/-- R34 item 4. -/
abbrev Hse.pendingOk (h : Hse c) : Prop := h.shn.toNat ≤ c.lMax ∧ (h.shn ≠ 0 → h.state = .active)

/-- R34 item 5, counted modulo `2^CNT_W` and so without the premise that no counter wrapped: the bits transferred and pending
since the most recent `START` are `BITCNT`. DEDUCED (log entry 9): it holds in every phase, not in ACTIVE only. -/
abbrev Hse.countOk (h : Hse c) : Prop :=
  h.mark ≤ h.out.length ∧ (h.out.length - h.mark + h.shn.toNat) % 2 ^ c.cntW = h.bitcnt.toNat

/-- The invariants of 10_state.md R34: after reset and after every step. -/
abbrev Hse.inv (h : Hse c) : Prop := h.errorOk ∧ h.tableOk ∧ h.pendingOk ∧ h.countOk

/-- The invariants of the machine are those of the block. -/
abbrev State.inv (s : State) : Prop := s.hse.inv

/-- How an open stream ends (00_scope.md R17). Only a completed stream has a result (60_exceptions.md R164). -/
inductive StreamEnd where
  | completed (result : Bits)
  | failed (cause : Cause)
  | abandoned
  deriving DecidableEq, Repr

/-- The end an edge puts to a stream that is open before it, from the edge's event and the block after it (00_scope.md R17):
an accepted `END` in ACTIVE completes, an error entry fails, an accepted `ABORT` or a reset abandons. -/
def Hse.streamEnd (event : Event c) (after before : Hse c) : Option StreamEnd :=
  if before.state ≠ .active then none
  else
    match event with
    | .reset => some .abandoned
    | .transfer => none
    | .quiet => none
    | .accept w =>
      match after.state with
      | .active => none
      | .error => some (.failed after.err)
      | .idle => if (Cmd.ofWord w).op = 0x5 then some (.completed before.sinceStart) else some .abandoned

/-- The next state of an outcome, if it is one. -/
def nextState? {φ ρ : Type} : Host.Outcome State φ ρ → Option State
  | .next t => some t
  | .fault _ => none
  | .refused _ => none

/-- The end the next step puts to a stream. -/
def State.streamEnd (s : State) : Option StreamEnd :=
  match step s with
  | .next t => Hse.streamEnd s.event t.hse s.hse
  | .fault _ => none
  | .refused _ => none

/-- Bits are pending, the sink never accepts again and nobody resets (70_reset_and_hazards.md R196). -/
abbrev State.stuck (s : State) : Prop :=
  s.hse.shn ≠ 0 ∧ (∀ e ∈ s.edges, e.rst = false ∧ e.outReady = false) ∧ s.later.rst = false ∧ s.later.outReady = false

/-- No reset comes, whatever the host's and the sink's readiness. -/
abbrev State.resetFree (s : State) : Prop := (∀ e ∈ s.edges, e.rst = false) ∧ s.later.rst = false

/-- The program has run: every command has been accepted and no bit is pending (00_scope.md R17). -/
abbrev State.finished (s : State) : Prop := s.cmds = [] ∧ s.hse.shn = 0

/-- No reset comes, and after the listed edges, whatever they are, the host offers its commands and the sink accepts: the
fairness every claim that a program runs to its end needs (70_reset_and_hazards.md R196, 92_eei_decisions.md D31). -/
abbrev State.fair (s : State) : Prop := (∀ e ∈ s.edges, e.rst = false) ∧ s.later = EdgeLevels.plain

end Sys2Proof.Machine
end

