-- ==== Sys2Proof/Machine/EncodeCall.lean ====
section
/-! DEFINITION. What the host holds as the result of the latest stream (00_scope.md R17, R19, 60_exceptions.md R164), step 6 of
the host procedure, reading `STATE` and `ERR` once the commands of an `encode` call have been accepted, and the whole call on the
machine (43_host_side_pipeline.md R143, 70_reset_and_hazards.md R183, R197). -/

namespace Sys2Proof.Machine

/-- What one `encode` call answers (43_host_side_pipeline.md R133, R143). Only `encoded` has an output (60_exceptions.md R164). -/
inductive CallResult where
  /-- The CodeTable and the EncodedOutput. -/
  | encoded (table : CodeTable) (output : Bits)
  /-- The input is empty; no command was issued. -/
  | invalidInput
  /-- A fatal assertion failure, MissingCode or a host defect, with the cause `st_err` shows. -/
  | fatal (cause : BitVec 3)
  /-- The host holds no result, and an `ABORT` or a reset has cleared what `st_err` showed, or no stream was opened: the bits are
  discarded (00_scope.md R19), and there is no cause to answer. DESIGN CHOICE (log entry 20): R143 step 6 names no answer for
  it. -/
  | noResult
  deriving DecidableEq, Repr

/-- The result the host holds after an edge, from the one it held before, the end the edge put to a stream and `STATE` after it:
a completed stream's result (00_scope.md R17), nothing once a stream has failed or been abandoned (60_exceptions.md R164), nor
while a stream is open. In IDLE a result is kept, also over a reset: the bits were given to the sink and "cannot be recalled"
(10_state.md R31); DEDUCED (log entry 20). DESIGN CHOICE (log entry 20): an error entered from IDLE (a second `END`, a `PUSH`, a
`LOAD` of illegal length, a reserved opcode) drops a completed stream's result for good, also once an `ABORT` or a reset has
cleared the error. R17 and R164 do not say so; 70_reset_and_hazards.md R197, which has a host that reads ERROR discard the bits,
is the nearest support. -/
def resultAfter (ended : Option StreamEnd) (state : Phase) (held : Option Bits) : Option Bits :=
  match ended with
  | some (.completed result) => some result
  | some (.failed _) => none
  | some .abandoned => none
  | none => if state = .idle then held else none

/-- The result the host holds after `k` edges from a state in which it held `held`. -/
def latestResult : Nat → Option Bits → State → Option Bits
  | 0, held, _ => held
  | k + 1, held, s =>
    match step s with
    | .next t => latestResult k (resultAfter (Hse.streamEnd s.event t.hse s.hse) t.hse.state held) t
    | .fault _ => none
    | .refused _ => none

/-- Step 6: the host reads `st_state` and `st_err`. IDLE with `ERR = 0` after a completed stream "means the bits transferred
since `START` are the EncodedOutput", the result it holds; ERROR is the fatal failure (43_host_side_pipeline.md R143). The output
of a failed or abandoned stream is never read as a result (00_scope.md R19, 60_exceptions.md R164): IDLE with `ERR = 0` and no
result, which an `ABORT` or a reset leaves, answers `noResult` (log entry 20, DESIGN CHOICE). Other readings, a stream still open,
answer nothing (log entry 19). -/
def readResult {c : Config} (table : CodeTable) (held : Option Bits) (status : StatusPorts c) : Option CallResult :=
  if status.stState = Phase.idle.code ∧ status.stErr = Cause.none.code then
    match held with
    | some output => some (.encoded table output)
    | none => some .noResult
  else if status.stState = Phase.error.code then some (.fatal status.stErr)
  else none

/-- Step 6 on the machine, with the result the host holds: once every command has been accepted the host reads the status ports
(70_reset_and_hazards.md R197); before, it has no answer (log entry 19). -/
def State.result (table : CodeTable) (held : Option Bits) (s : State) : Option CallResult :=
  if s.cmds = [] then readResult table held (s.hse.ports s.now.rst).status else none

/-- The host with further commands to issue, after those it has. -/
def State.issue (is : List Instr) (s : State) : State := { s with cmds := s.cmds ++ is.map encode }

/-- One `encode` call on the machine, read after `k` edges (43_host_side_pipeline.md R143): steps 1 to 5 give the commands, the
machine runs them, step 6 reads the outcome. The host begins the call with no result. -/
def encodeOn (ch : BuildChoices) (input : List Sym) (k : Nat) (s : State) : Option CallResult :=
  match encodeCall ch input with
  | .error _ => some .invalidInput
  | .ok (table, is) =>
    match Host.Core.run Sys2Proof.core k (s.issue is) with
    | .next t => t.result table (latestResult k none (s.issue is))
    | .fault _ => none
    | .refused _ => none

end Sys2Proof.Machine
end

