-- ==== Sys2Proof/Certificates/Slice0/Obligations.lean ====
section
/-! DEFINITION. What is claimed of the machine, from the numbered rules of spec/. A claim about "any configuration" speaks of
the block alone (Machine/Transactions.lean), one about `exec` or `step` of the machine at the defaults. -/

open Sys2Proof Sys2Proof.Machine

/-! Encoding. -/

/-- 30_encoding.md R76, R78: decoding an encoded command gives it back, with every field at every value; encoding a decoded
word gives it back; and fields and word determine each other at every configuration. -/
def Obligations.DecodeAndEncodeAgree : Prop :=
  (∀ i : Instr, decode (encode i) = .command i) ∧
  (∀ w : CmdWord, (decode w).toCmd.toWord = w) ∧
  (∀ (c : Config) (cmd : Cmd c), Cmd.ofWord cmd.toWord = cmd) ∧
  (∀ (c : Config) (w : BitVec c.cmdW), (Cmd.ofWord w).toWord = w)

/-- 30_encoding.md R76, 95_test_vectors.md sections 2.1 and 2.7: a few command words and what they decode to. -/
def Obligations.KnownWordsDecode : Prop :=
  decode 0x0 = .command (.nop 0 0 0) ∧
  decode 0x1 = .command (.clrt 0 0 0) ∧
  decode 0x5097E1 = .command (.clrt 0x7E 9 5) ∧
  decode 0x302482 = .command (.load 0x48 2 3) ∧
  decode 0x5044B2 = .command (.load 0x4B 4 5) ∧
  decode 0x3 = .command (.start 0 0 0) ∧
  decode 0x414 = .command (.push 0x41 0 0) ∧
  decode 0x5 = .command (.endStream 0 0 0) ∧
  decode 0x6 = .command (.abort 0 0 0) ∧
  decode 0x41F = .reservedOpcode ⟨0xF, 0x41, 0, 0⟩

/-- 30_encoding.md R74, R77, R78: the low four bits alone select the command; the words rejected are those whose opcode is 7
to 15. -/
def Obligations.OpcodeAloneSelectsTheCommand : Prop :=
  (∀ (w : CmdWord) (i : Instr), decode w = .command i → w &&& 0xF = i.opcode.setWidth Config.hse.cmdW) ∧
  (∀ w : CmdWord, (∃ cmd, decode w = .reservedOpcode cmd) ↔ 7 ≤ (w &&& 0xF).toNat) ∧
  (∀ (w v : CmdWord) (i j : Instr), decode w = .command i → decode v = .command j →
    (w &&& 0xF = v &&& 0xF ↔ i.opcode = j.opcode))

/-- 30_encoding.md R75: unused fields are ignored, but for `SYM` going into `ERRSYM` on error entry, and the assembler writes
zeros there. -/
def Obligations.UnusedFieldsAreIgnored : Prop :=
  (∀ sym sym' len len' code code' s, exec (.nop sym len code) s = exec (.nop sym' len' code') s) ∧
  (∀ sym sym' len len' code code' s, exec (.abort sym len code) s = exec (.abort sym' len' code') s) ∧
  (∀ sym len len' code code' s, exec (.push sym len code) s = exec (.push sym len' code') s) ∧
  (∀ (mk : Sym → Len → Code → Instr), mk = .clrt ∨ mk = .start ∨ mk = .endStream →
    ∀ sym sym' len len' code code' s, ∃ t, exec (mk sym len code) s = .next t ∧
      exec (mk sym' len' code') s = .next (if s.hse.state ≠ .error ∧ t.hse.state = .error
        then { t with hse := { t.hse with errsym := sym' } } else t)) ∧
  (∀ line : AsmLine, line.wellFormed = true → (∃ v, line = .word v) ∨ ∃ i : Instr, i.canonical = true ∧ line.assemble = encode i)

/-- 30_encoding.md R73, R82 with 40_table_commands.md R91 and 20_memory.md R56: a `LOAD` assembled from a codeword of 1 to
255 bits and accepted in IDLE makes that codeword the symbol's lookup, and every other symbol's lookup is what it was. -/
def Obligations.LoadedCodewordIsLookedUp : Prop :=
  ∀ (sym : Sym) (bits : Bits) (s : State), s.hse.state = .idle → 1 ≤ bits.length → bits.length ≤ 255 →
    ∃ t, exec (loadBits sym bits) s = .next t ∧ t.hse.state = .idle ∧
      ∀ r, t.hse.lookup r = if r = sym then some bits else s.hse.lookup r

/-! The effect of every command. -/

/-- 42_control_commands.md R120: `NOP` does nothing, in every state. -/
def Obligations.NopDoesNothing : Prop :=
  (∀ sym len code s, exec (.nop sym len code) s = .next s) ∧ encode (.nop 0 0 0) = 0x0

/-- 40_table_commands.md R90: `CLRT` empties the table in IDLE, raises BAD_SEQUENCE in ACTIVE, is discarded in ERROR. -/
def Obligations.ClrtEmptiesTheTable : Prop :=
  (∀ sym len code s, exec (.clrt sym len code) s = .next { s with hse :=
    match s.hse.state with
    | .idle => { s.hse with table := [] }
    | .active => { s.hse with state := .error, err := .badSequence, errop := 0x1, errsym := sym }
    | .error => s.hse }) ∧
  (∀ sym len code s t, s.hse.state = .idle → exec (.clrt sym len code) s = .next t →
    ∀ r, (t.hse.entry r).len = 0 ∧ (t.hse.entry r).code = 0 ∧ t.hse.lookup r = none) ∧
  encode (.clrt 0 0 0) = 0x1

/-- 40_table_commands.md R91: `LOAD` writes the entry (`LEN`, `CODE[LEN-1:0]`) in IDLE when `1 <= LEN <= 255`; the other
cases raise, BAD_SEQUENCE before BAD_LENGTH; it is discarded in ERROR. The address written is the symbol. -/
def Obligations.LoadWritesOneEntry : Prop :=
  (∀ sym len code s, exec (.load sym len code) s = .next { s with hse :=
    match s.hse.state with
    | .idle =>
      if 1 ≤ len.toNat ∧ len.toNat ≤ 255 then
        { s.hse with table := Table.write s.hse.table sym.toNat ⟨len, BitVec.ofNat 255 (code.toNat % 2 ^ len.toNat)⟩ }
      else { s.hse with state := .error, err := .badLength, errop := 0x2, errsym := sym }
    | .active => { s.hse with state := .error, err := .badSequence, errop := 0x2, errsym := sym }
    | .error => s.hse }) ∧
  (∀ sym len code s t, s.hse.state = .idle → 1 ≤ len.toNat → len.toNat ≤ 255 → exec (.load sym len code) s = .next t →
    ∀ r, t.hse.entry r = if r = sym then ⟨len, BitVec.ofNat 255 (code.toNat % 2 ^ len.toNat)⟩ else s.hse.entry r) ∧
  (∀ sym len code, encode (.load sym len code) = BitVec.ofNat 275 (0x2 ||| sym.toNat <<< 4 ||| len.toNat <<< 12 ||| code.toNat <<< 20))

/-- 41_stream_commands.md R100: `START` opens a stream in IDLE, raises BAD_SEQUENCE in ACTIVE, is discarded in ERROR. -/
def Obligations.StartOpensAStream : Prop :=
  (∀ sym len code s, exec (.start sym len code) s = .next { s with hse :=
    match s.hse.state with
    | .idle => { s.hse with state := .active, symcnt := 0, bitcnt := 0, mark := s.hse.out.length }
    | .active => { s.hse with state := .error, err := .badSequence, errop := 0x3, errsym := sym }
    | .error => s.hse }) ∧
  encode (.start 0 0 0) = 0x3

/-- 41_stream_commands.md R101: `PUSH` in ACTIVE queues and counts the symbol's codeword, or raises MISSING_CODE and leaves
everything else alone; BAD_SEQUENCE in IDLE; discarded in ERROR. The bits that then leave are the codeword, and no command is accepted before they
have. -/
def Obligations.PushQueuesTheCodeword : Prop :=
  (∀ sym len code s, exec (.push sym len code) s = .next { s with hse :=
    match s.hse.state with
    | .idle => { s.hse with state := .error, err := .badSequence, errop := 0x4, errsym := sym }
    | .active =>
      if (s.hse.entry sym).len.toNat = 0 then
        { s.hse with state := .error, err := .missingCode, errop := 0x4, errsym := sym }
      else
        { s.hse with
          sh := (s.hse.entry sym).code
          shn := (s.hse.entry sym).len
          symcnt := s.hse.symcnt + 1
          bitcnt := s.hse.bitcnt + BitVec.ofNat 32 (s.hse.entry sym).len.toNat }
    | .error => s.hse }) ∧
  (∀ sym len code s t q, s.hse.state = .active → s.hse.lookup sym = some q → exec (.push sym len code) s = .next t →
    t.hse.pending = q ∧ t.hse.drain.out = s.hse.out ++ q ∧ ∀ w, t.event ≠ .accept w) ∧
  (∀ sym : Sym, encode (.push sym 0 0) = BitVec.ofNat 275 (0x4 ||| sym.toNat <<< 4))

/-- 41_stream_commands.md R102: `END` closes the stream in ACTIVE, raises BAD_SEQUENCE in IDLE, is discarded in ERROR. -/
def Obligations.EndClosesTheStream : Prop :=
  (∀ sym len code s, exec (.endStream sym len code) s = .next { s with hse :=
    match s.hse.state with
    | .idle => { s.hse with state := .error, err := .badSequence, errop := 0x5, errsym := sym }
    | .active => { s.hse with state := .idle }
    | .error => s.hse }) ∧
  encode (.endStream 0 0 0) = 0x5

/-- 42_control_commands.md R121, 60_exceptions.md R165: `ABORT` brings the block to IDLE from any state and clears the error
registers; everything else is kept. -/
def Obligations.AbortReturnsToIdle : Prop :=
  (∀ sym len code s, exec (.abort sym len code) s =
    .next { s with hse := { s.hse with state := .idle, err := .none, errop := 0, errsym := 0 } }) ∧
  encode (.abort 0 0 0) = 0x6

/-- 42_control_commands.md R122: an accepted word with a reserved opcode raises ILLEGAL_OP in IDLE and in ACTIVE and is
discarded in ERROR. -/
def Obligations.ReservedOpcodeRaisesIllegalOp : Prop :=
  ∀ (s : State) (w : CmdWord) (rest : List CmdWord), s.now.rst = false → s.now.offer = true → s.hse.shn = 0 →
    s.cmds = w :: rest → 7 ≤ (w.extractLsb' 0 4).toNat →
    step s = .next { s with
      cmds := rest
      edges := s.edges.tail
      hse :=
        if s.hse.state = .error then s.hse
        else { s.hse with state := .error, err := .illegalOp, errop := w.extractLsb' 0 4, errsym := w.extractLsb' 4 8 } }

/-- 40_table_commands.md R91 and 60_exceptions.md R155 at every configuration (00_scope.md R6, R7, R9): in IDLE the lengths
above `L_MAX` are refused with BAD_LENGTH, and `LEN = 0` is; every other length is stored. -/
def Obligations.LoadLengthsAtEveryConfiguration : Prop :=
  ∀ (c : Config) (cmd : Cmd c) (h : Hse c), h.state = .idle →
    (cmd.len.toNat = 0 ∨ c.lMax < cmd.len.toNat →
      h.loadEntry cmd = { h with state := .error, err := .badLength, errop := cmd.op, errsym := cmd.sym }) ∧
    (1 ≤ cmd.len.toNat → cmd.len.toNat ≤ c.lMax →
      (h.loadEntry cmd).lookup cmd.sym = some (seqBits cmd.len.toNat cmd.code) ∧ (h.loadEntry cmd).state = .idle ∧
      ∀ r, r ≠ cmd.sym → (h.loadEntry cmd).entry r = h.entry r)

/-! Frames: what a command leaves unchanged. -/

/-- 40_table_commands.md R90, R91, 20_memory.md R53, R55: `CLRT` and `LOAD` leave the counters, `SH`, `SHN`, the ghosts and the
other agents alone; `LOAD` leaves every entry but the one at its symbol; and on an error entry or a discard the whole table is
as it was, and without one the error registers are. -/
def Obligations.TableCommandFrame : Prop :=
  ∀ (i : Instr) (sym : Sym) (len : Len) (code : Code) (s t : State),
    i = .clrt sym len code ∨ i = .load sym len code → exec i s = .next t →
    t.cmds = s.cmds ∧ t.edges = s.edges ∧ t.later = s.later ∧
    t.hse.symcnt = s.hse.symcnt ∧ t.hse.bitcnt = s.hse.bitcnt ∧ t.hse.sh = s.hse.sh ∧ t.hse.shn = s.hse.shn ∧
    t.hse.out = s.hse.out ∧ t.hse.mark = s.hse.mark ∧
    (i = .load sym len code → ∀ r, r ≠ sym → t.hse.entry r = s.hse.entry r) ∧
    (t.hse.state = .error → ∀ r, t.hse.entry r = s.hse.entry r) ∧
    (t.hse.state ≠ .error ∨ s.hse.state = .error →
      t.hse.state = s.hse.state ∧ t.hse.err = s.hse.err ∧ t.hse.errop = s.hse.errop ∧ t.hse.errsym = s.hse.errsym)

/-- 41_stream_commands.md R100, R101, R102: `START`, `PUSH` and `END` leave every table entry, `OUT` and the other agents alone;
only `PUSH` writes `SH` and `SHN`, only `START` writes `MARK`, `END` writes no counter; and without an error entry the error
registers are as they were, with one the counters are. -/
def Obligations.StreamCommandFrame : Prop :=
  ∀ (i : Instr) (sym : Sym) (len : Len) (code : Code) (s t : State),
    i = .start sym len code ∨ i = .push sym len code ∨ i = .endStream sym len code → exec i s = .next t →
    t.cmds = s.cmds ∧ t.edges = s.edges ∧ t.later = s.later ∧
    (∀ r, t.hse.entry r = s.hse.entry r) ∧ t.hse.table = s.hse.table ∧ t.hse.out = s.hse.out ∧
    (i ≠ .push sym len code → t.hse.sh = s.hse.sh ∧ t.hse.shn = s.hse.shn) ∧
    (i ≠ .start sym len code → t.hse.mark = s.hse.mark) ∧
    (i = .endStream sym len code → t.hse.symcnt = s.hse.symcnt ∧ t.hse.bitcnt = s.hse.bitcnt) ∧
    (t.hse.state = .error → t.hse.symcnt = s.hse.symcnt ∧ t.hse.bitcnt = s.hse.bitcnt ∧ t.hse.sh = s.hse.sh ∧
      t.hse.shn = s.hse.shn ∧ t.hse.mark = s.hse.mark) ∧
    (t.hse.state ≠ .error ∨ s.hse.state = .error →
      t.hse.err = s.hse.err ∧ t.hse.errop = s.hse.errop ∧ t.hse.errsym = s.hse.errsym)

/-- 42_control_commands.md R120, R121, R122: `NOP`, `ABORT` and a reserved opcode leave the table, the counters, `SH`, `SHN`,
the ghosts and the other agents alone; `NOP` leaves the status registers too. -/
def Obligations.ControlCommandFrame : Prop :=
  ∀ (sym : Sym) (len : Len) (code : Code) (cmd : Cmd Config.hse) (s t : State),
    exec (.nop sym len code) s = .next t ∨ exec (.abort sym len code) s = .next t ∨ execReserved cmd s = .next t →
    t.cmds = s.cmds ∧ t.edges = s.edges ∧ t.later = s.later ∧
    (∀ r, t.hse.entry r = s.hse.entry r) ∧ t.hse.table = s.hse.table ∧ t.hse.symcnt = s.hse.symcnt ∧
    t.hse.bitcnt = s.hse.bitcnt ∧ t.hse.sh = s.hse.sh ∧ t.hse.shn = s.hse.shn ∧ t.hse.out = s.hse.out ∧
    t.hse.mark = s.hse.mark ∧
    (exec (.nop sym len code) s = .next t → t.hse.state = s.hse.state ∧ t.hse.err = s.hse.err ∧
      t.hse.errop = s.hse.errop ∧ t.hse.errsym = s.hse.errsym)

/-! Errors. -/

/-- 60_exceptions.md R160: error entry writes `ERR`, `ERROP`, `ERRSYM` and `STATE` and nothing else. A step that takes the block
into ERROR accepts a word, its cause is one of codes 2 to 5, and every other register is as it was. -/
def Obligations.ErrorEntryWritesFourRegisters : Prop :=
  ∀ s t : State, step s = .next t → s.hse.state ≠ .error → t.hse.state = .error →
    ∃ (w : CmdWord) (rest : List CmdWord), s.cmds = w :: rest ∧ t.cmds = rest ∧ s.hse.shn = 0 ∧
      t.hse = { s.hse with
        err := t.hse.err, errop := w.extractLsb' 0 4, errsym := w.extractLsb' 4 8, state := .error } ∧
      (t.hse.err = .missingCode ∨ t.hse.err = .illegalOp ∨ t.hse.err = .badSequence ∨ t.hse.err = .badLength)

/-- 60_exceptions.md R158: one accepted command raises at most one error, the first of the fixed order of checks that
applies. -/
def Obligations.ErrorPriorityOrder : Prop :=
  ∀ (s t : State) (w : CmdWord), s.event = .accept w → step s = .next t →
    let op := (w.extractLsb' 0 4).toNat
    let len := (w.extractLsb' 12 8).toNat
    let raises (e : Cause) :=
      t.hse = { s.hse with err := e, errop := w.extractLsb' 0 4, errsym := w.extractLsb' 4 8, state := .error }
    if op = 0 then t.hse = s.hse
    else if op = 6 then t.hse = { s.hse with state := .idle, err := .none, errop := 0, errsym := 0 }
    else if s.hse.state = .error then t.hse = s.hse
    else if 7 ≤ op then raises .illegalOp
    else if (s.hse.state = .active ∧ (op = 1 ∨ op = 2 ∨ op = 3)) ∨ (s.hse.state = .idle ∧ (op = 4 ∨ op = 5)) then
      raises .badSequence
    else if op = 2 ∧ (len = 0 ∨ 255 < len) then raises .badLength
    else if op = 4 ∧ (s.hse.entry (w.extractLsb' 4 8)).len.toNat = 0 then raises .missingCode
    else t.hse.state ≠ .error ∧ t.hse.err = s.hse.err ∧ t.hse.errop = s.hse.errop ∧ t.hse.errsym = s.hse.errsym

/-- 60_exceptions.md R162: in ERROR every accepted word but `ABORT` is taken from the port and changes nothing of the block,
`ABORT` executes (R165), every offered word is accepted, and no bit is transferred. -/
def Obligations.CommandsAreDiscardedInError : Prop :=
  (∀ (s t : State) (w : CmdWord), s.hse.state = .error → s.event = .accept w → w.extractLsb' 0 4 ≠ 0x6 →
    step s = .next t → t.hse = s.hse ∧ s.cmds = w :: t.cmds) ∧
  (∀ (s t : State) (w : CmdWord), s.hse.state = .error → s.event = .accept w → w.extractLsb' 0 4 = 0x6 →
    step s = .next t → t.hse = { s.hse with state := .idle, err := .none, errop := 0, errsym := 0 }) ∧
  (∀ s : State, s.inv → s.hse.state = .error → s.event ≠ .transfer ∧
    (s.now.rst = false → s.now.offer = true → ∀ (w : CmdWord) (rest : List CmdWord), s.cmds = w :: rest → s.event = .accept w))

/-- 60_exceptions.md R163: in ERROR no step changes the recorded error but `ABORT` and reset, and these clear it: the first error
wins. -/
def Obligations.FirstErrorWins : Prop :=
  ∀ s t : State, s.hse.state = .error → step s = .next t →
    (t.hse.state = .error ∧ t.hse.err = s.hse.err ∧ t.hse.errop = s.hse.errop ∧ t.hse.errsym = s.hse.errsym) ∨
    (t.hse.state = .idle ∧ t.hse.err = .none ∧ t.hse.errop = 0 ∧ t.hse.errsym = 0 ∧
      (s.event = .reset ∨ ∃ w, s.event = .accept w ∧ w.extractLsb' 0 4 = 0x6))

/-- 60_exceptions.md R151: no command and no state of HSE writes INVALID_INPUT into `ERR`. -/
def Obligations.InvalidInputIsNeverRaised : Prop :=
  ∀ s t : State, step s = .next t → t.hse.err = .invalidInput → s.hse.err = .invalidInput

/-! The whole machine. -/

/-- 10_state.md R22: the next value of `STATE`, for every accepted word in every state; no transfer of a bit and no quiet edge
changes it, and reset takes any state to IDLE. -/
def Obligations.StateTransitionTable : Prop :=
  ∀ s t : State, step s = .next t →
    match s.event with
    | .reset => t.hse.state = .idle
    | .transfer => t.hse.state = s.hse.state
    | .quiet => t.hse.state = s.hse.state
    | .accept w =>
      let op := (w.extractLsb' 0 4).toNat
      let len := (w.extractLsb' 12 8).toNat
      t.hse.state =
        match s.hse.state with
        | .idle =>
          if op = 3 then .active
          else if op = 0 ∨ op = 1 ∨ op = 6 ∨ (op = 2 ∧ 1 ≤ len ∧ len ≤ 255) then .idle
          else .error
        | .active =>
          if op = 5 ∨ op = 6 then .idle
          else if op = 0 ∨ (op = 4 ∧ (s.hse.lookup (w.extractLsb' 4 8)).isSome = true) then .active
          else .error
        | .error => if op = 6 then .idle else .error

/-- 10_state.md R27, R28: what every step does to the two counters. -/
def Obligations.CountersCountPushes : Prop :=
  ∀ s t : State, step s = .next t →
    match s.event with
    | .reset => t.hse.symcnt = 0 ∧ t.hse.bitcnt = 0
    | .transfer => t.hse.symcnt = s.hse.symcnt ∧ t.hse.bitcnt = s.hse.bitcnt
    | .quiet => t.hse.symcnt = s.hse.symcnt ∧ t.hse.bitcnt = s.hse.bitcnt
    | .accept w =>
      if w.extractLsb' 0 4 = 0x3 ∧ s.hse.state = .idle then t.hse.symcnt = 0 ∧ t.hse.bitcnt = 0
      else if w.extractLsb' 0 4 = 0x4 ∧ s.hse.state = .active then
        match s.hse.lookup (w.extractLsb' 4 8) with
        | some q =>
          t.hse.symcnt.toNat = (s.hse.symcnt.toNat + 1) % 2 ^ 32 ∧
          t.hse.bitcnt.toNat = (s.hse.bitcnt.toNat + q.length) % 2 ^ 32
        | none => t.hse.symcnt = s.hse.symcnt ∧ t.hse.bitcnt = s.hse.bitcnt
      else t.hse.symcnt = s.hse.symcnt ∧ t.hse.bitcnt = s.hse.bitcnt

/-- 70_reset_and_hazards.md R187, R188: the step of a machine whose host offers a command word, with no reset and no bit pending,
is `exec` of the decoded command, at the state with the word taken from the host and the edge past. -/
def Obligations.StepRunsTheDecodedCommand : Prop :=
  ∀ (s : State) (w : CmdWord) (rest : List CmdWord) (i : Instr),
    s.now.rst = false → s.now.offer = true → s.hse.shn = 0 → s.cmds = w :: rest → decode w = .command i →
    step s = exec i { s with cmds := rest, edges := s.edges.tail }

/-- 70_reset_and_hazards.md R186, R187, R188, R190: the block after a step is the block after one rising edge with the input
levels of that edge, as the block is defined at any configuration. -/
def Obligations.StepIsOneEdgeOfTheBlock : Prop :=
  ∀ s : State, ∃ t, step s = .next t ∧ t.hse = s.hse.edge s.portsIn ∧ t.edges = s.edges.tail ∧ t.later = s.later ∧
    t.cmds = (if s.now.rst = false ∧ s.now.offer = true ∧ s.hse.shn = 0 then s.cmds.tail else s.cmds)

/-- 70_reset_and_hazards.md R188: `cmd_ready = (rst == 0) and (SHN == 0)`, and a command is accepted only when no bit is pending,
whatever the command and whatever `STATE`. -/
def Obligations.CommandInterlock : Prop :=
  ∀ (c : Config) (p : PortsIn c) (h : Hse c),
    (h.ports p.rst).cmdReady = (!p.rst && decide (h.shn.toNat = 0)) ∧
    (∀ w, h.event p = .accept w ↔ p.cmd = some w ∧ (h.ports p.rst).cmdReady = true) ∧
    (h.shn.toNat ≠ 0 → ∀ w, h.event p ≠ .accept w)

/-- 70_reset_and_hazards.md R190: `out_valid = (rst == 0) and (SHN != 0)`, `out_bit = SH[SHN-1]`; an edge adds to `OUT` the one bit
offered when `out_valid` and `out_ready` are 1, and no bit otherwise; a bit that is not transferred stays offered. -/
def Obligations.OutputHandshake : Prop :=
  ∀ (c : Config) (p : PortsIn c) (h : Hse c),
    (h.ports p.rst).outValid = (!p.rst && decide (h.shn.toNat ≠ 0)) ∧
    ((h.ports p.rst).outValid = true → (h.ports p.rst).outBit = some (h.sh.getLsbD (h.shn.toNat - 1))) ∧
    (p.rst = false → (h.edge p).out =
      h.out ++ if (h.ports p.rst).outValid && p.outReady then [h.sh.getLsbD (h.shn.toNat - 1)] else []) ∧
    (p.rst = false → h.shn.toNat ≠ 0 → p.outReady = true → (h.edge p).shn.toNat = h.shn.toNat - 1) ∧
    ((h.ports p.rst).outValid = true → p.outReady = false → (h.edge p).ports false = h.ports false)

/-- 10_state.md R21, R25, R32, R33, 70_reset_and_hazards.md R191: every status port shows its register, at every level of `rst`. -/
def Obligations.StatusPortsShowTheRegisters : Prop :=
  ∀ (c : Config) (h : Hse c) (rst : Bool),
    let st := (h.ports rst).status
    (st.stState.toNat = match h.state with | .idle => 0 | .active => 1 | .error => 2) ∧
    (st.stErr.toNat = match h.err with
      | .none => 0 | .invalidInput => 1 | .missingCode => 2 | .illegalOp => 3 | .badSequence => 4 | .badLength => 5) ∧
    st.stErrop = h.errop ∧ st.stErrsym = h.errsym ∧ st.stSymcnt = h.symcnt ∧ st.stBitcnt = h.bitcnt ∧
    (st.stBusy = true ↔ h.shn.toNat ≠ 0) ∧ (st.irq = true ↔ h.state = .error)

/-- 41_stream_commands.md R110: the emit step transfers one bit and changes nothing else; and as long as no reset comes and no
command is accepted, what has left is the first of the pending bits in their order, and nothing but `SHN` has changed. -/
def Obligations.PendingBitsLeaveInOrder : Prop :=
  (∀ s : State, s.now.rst = false → s.hse.shn ≠ 0 → s.now.outReady = true → step s = .next { s with
    edges := s.edges.tail
    hse := { s.hse with out := s.hse.out ++ [s.hse.sh.getLsbD (s.hse.shn.toNat - 1)], shn := s.hse.shn - 1 } }) ∧
  (∀ (k : Nat) (s t : State), s.resetFree → Host.Core.run core k s = .next t → t.cmds = s.cmds →
    t.hse.shn.toNat ≤ s.hse.shn.toNat ∧
    t.hse = { s.hse with
      out := s.hse.out ++ (seqBits s.hse.shn.toNat s.hse.sh).take (s.hse.shn.toNat - t.hse.shn.toNat)
      shn := t.hse.shn }) ∧
  (∀ (s t : State), s.now.rst = false → s.hse.shn ≠ 0 → step s = .next t → t.cmds = s.cmds)

/-- 41_stream_commands.md R111: at every configuration, `PUSH` and its emit steps together are the one atomic step, for a block
with no bit pending. -/
def Obligations.PushWithItsEmitStepsIsAtomic : Prop :=
  ∀ (c : Config) (cmd : Cmd c) (h : Hse c), h.shn = 0 → (h.push cmd).drain = h.pushAtomic cmd

/-- 10_state.md R35, 70_reset_and_hazards.md R180: the state after reset, value by value, every table entry included, at every
configuration. -/
def Obligations.ResetValues : Prop :=
  State.reset.hse = Hse.reset Config.hse ∧ ∀ (c : Config) (h : Hse c), h = Hse.reset c →
    h.state = .idle ∧ h.err = .none ∧ h.errop = 0 ∧ h.errsym = 0 ∧ h.symcnt = 0 ∧ h.bitcnt = 0 ∧
    (∀ sym, (h.entry sym).len = 0 ∧ (h.entry sym).code = 0) ∧ h.sh = 0 ∧ h.shn = 0 ∧
    h.busy = false ∧ h.irq = false ∧ h.out = [] ∧ h.mark = 0

/-- 70_reset_and_hazards.md R180, R181: at an edge with `rst = 1` the reset event happens whatever the state, `cmd_ready` and
`out_valid` are 0, no command is accepted and no bit is transferred. -/
def Obligations.ResetWinsAtAnyEdge : Prop :=
  (∀ s : State, s.now.rst = true → step s = .next { s with hse := State.reset.hse, edges := s.edges.tail }) ∧
  (∀ (c : Config) (h : Hse c), (h.ports true).cmdReady = false ∧ (h.ports true).outValid = false)

/-- 30_encoding.md R79: execution is total. Every command and every step answer a next state. -/
def Obligations.EveryStepAnswersANextState : Prop :=
  (∀ (i : Instr) (s : State), ∃ t, exec i s = .next t) ∧ (∀ s : State, ∃ t, step s = .next t)

/-- 10_state.md R34 at every configuration: the invariants are kept by every edge of the block, whatever its inputs, from every
state that meets them. Item 5 is in the model's form (log entry 9, DEDUCED), which where `CNT_W < LEN_W` also rests on log
entry 6. -/
def Obligations.EveryEdgeKeepsTheInvariants : Prop :=
  ∀ (c : Config) (p : PortsIn c) (h : Hse c), h.inv → (h.edge p).inv

/-- 10_state.md R34: every step of the machine keeps the invariants, item 5 in the model's form (log entry 9, DEDUCED). -/
def Obligations.EveryStepKeepsTheInvariants : Prop :=
  ∀ s t : State, s.inv → step s = .next t → t.inv

/-- 10_state.md R34, R35: the invariants hold at reset, item 5 in the model's form (log entry 9, DEDUCED). -/
def Obligations.ResetMeetsTheInvariants : Prop :=
  State.reset.inv ∧ ∀ c : Config, (Hse.reset c).inv

/-- 10_state.md R34 items 3 and 4, spelled for every symbol: what the invariants say of every table entry and of the pending
bits. -/
def Obligations.InvariantsBoundEveryEntry : Prop :=
  ∀ (c : Config) (h : Hse c), h.inv →
    (∀ sym, (h.entry sym).len.toNat ≤ c.lMax ∧ ∀ i, (h.entry sym).len.toNat ≤ i → (h.entry sym).code.getLsbD i = false) ∧
    (h.state ≠ .active → h.pending = [])

/-- 70_reset_and_hazards.md R194, 41_stream_commands.md R107: no step changes the table while a stream is open, reset apart;
`CLRT` and `LOAD` in ACTIVE raise BAD_SEQUENCE and fail the stream. -/
def Obligations.TableIsFrozenDuringAStream : Prop :=
  (∀ s t : State, s.hse.state = .active → s.now.rst = false → step s = .next t → t.hse.table = s.hse.table) ∧
  (∀ (s : State) (w : CmdWord), s.hse.state = .active → s.event = .accept w →
    w.extractLsb' 0 4 = 0x1 ∨ w.extractLsb' 0 4 = 0x2 →
    ∃ t, step s = .next t ∧ t.hse.err = .badSequence ∧ s.streamEnd = some (.failed .badSequence))

/-- 70_reset_and_hazards.md R196: a sink that never accepts blocks everything but reset. The block and the host's commands stay
as they are for any number of steps, `cmd_ready` stays 0, no command is accepted, and an edge with `rst = 1` still resets. -/
def Obligations.StuckSinkBlocksAllButReset : Prop :=
  (∀ (k : Nat) (s : State), s.stuck → ∃ t, Host.Core.run core k s = .next t ∧ t.hse = s.hse ∧ t.cmds = s.cmds ∧
    (t.hse.ports t.now.rst).cmdReady = false ∧ ∀ w, t.event ≠ .accept w) ∧
  (∀ (s : State) (levels : EdgeLevels), s.stuck → levels.rst = true →
    ∃ t, step { s with edges := levels :: s.edges } = .next t ∧ t.hse = State.reset.hse)

/-- 00_scope.md R17: how a step ends an open stream. -/
def Obligations.StreamsEndAsDefined : Prop :=
  ∀ s t : State, step s = .next t → s.hse.state = .active →
    (∀ r, s.streamEnd = some (.completed r) ↔
      r = s.hse.out.drop s.hse.mark ∧ ∃ w, s.event = .accept w ∧ w.extractLsb' 0 4 = 0x5) ∧
    (∀ e, s.streamEnd = some (.failed e) ↔ t.hse.state = .error ∧ t.hse.err = e) ∧
    (s.streamEnd = some .abandoned ↔ s.event = .reset ∨ ∃ w, s.event = .accept w ∧ w.extractLsb' 0 4 = 0x6) ∧
    (s.streamEnd = none ↔ t.hse.state = .active)

/-- 41_stream_commands.md R105: when `END` is accepted in ACTIVE, the length of the result is `BITCNT` modulo `2^32`, and equal
to it when it is below `2^32`. It rests on item 5 of the invariants in the model's form (log entry 9, DEDUCED). -/
def Obligations.LengthProperty : Prop :=
  ∀ (s : State) (r : Bits), s.inv → s.streamEnd = some (.completed r) →
    r.length % 2 ^ 32 = s.hse.bitcnt.toNat ∧ (r.length < 2 ^ 32 → r.length = s.hse.bitcnt.toNat)

/-- 20_memory.md R59: after any commands accepted in IDLE that are `CLRT`s and `LOAD`s of legal length, a symbol's lookup is the
codeword of the latest `LOAD` of that symbol not followed by a `CLRT`, and what it was before them if neither touched it. -/
def Obligations.LookupIsTheLatestLoad : Prop :=
  ∀ (before after : List Instr) (sym : Sym) (len : Len) (code : Code) (h : Hse Config.hse),
    h.state = .idle → h.shn = 0 → 1 ≤ len.toNat →
    (∀ i ∈ before ++ after, (∃ a b d, i = .clrt a b d) ∨ ∃ a b d, i = .load a b d ∧ 1 ≤ b.toNat) →
    (∀ i ∈ after, ∃ a b d, i = .load a b d ∧ a ≠ sym) →
    (Hse.runWords ((before ++ .load sym len code :: after).map encode) h).lookup sym = some (seqBits len.toNat code) ∧
    (∀ a b d, (Hse.runWords ((before ++ .clrt a b d :: after).map encode) h).lookup sym = none) ∧
    (Hse.runWords (after.map encode) h).lookup sym = h.lookup sym

/-! Runs. -/

/-- 41_stream_commands.md R111, 20_memory.md R59: the machine refines the transaction level. Every step without a reset, of
whichever agent, leaves the same block to be reached by executing the remaining command words whole and one after the other. -/
def Obligations.StepRefinesTheTransactionLevel : Prop :=
  (∀ s t : State, s.now.rst = false → step s = .next t → Hse.runWords t.cmds t.hse = Hse.runWords s.cmds s.hse) ∧
  (∀ (k : Nat) (s t : State), s.resetFree → Host.Core.run core k s = .next t → t.finished →
    t.hse = Hse.runWords s.cmds s.hse)

/-- 00_scope.md R10, R15, 41_stream_commands.md R104, 70_reset_and_hazards.md R198: the outcome of a program does not depend on
timing. Two runs of the same commands from the same block, under any two schedules without a reset, end in the same block. -/
def Obligations.OutcomeDoesNotDependOnTiming : Prop :=
  ∀ (k k' : Nat) (s s' t t' : State), s.hse = s'.hse → s.cmds = s'.cmds → s.resetFree → s'.resetFree →
    Host.Core.run core k s = .next t → Host.Core.run core k' s' = .next t' → t.finished → t'.finished → t.hse = t'.hse

/-- 00_scope.md R17, 70_reset_and_hazards.md R196: with a sink and a host that in the end are always ready, every program runs to
its end. Schedules have the model's form (log entry 14, DESIGN CHOICE). -/
def Obligations.EveryProgramRunsToItsEnd : Prop :=
  ∀ s : State, s.fair → ∃ (k : Nat) (t : State), Host.Core.run core k s = .next t ∧ t.finished

/-- 41_stream_commands.md R104, the stream that completes: `START`, then `PUSH`es and `NOP`s of symbols that all have codewords,
then `END`, under any schedule without a reset. When the commands have been accepted the result is the concatenation of the
codewords in order, the block is in IDLE with no error, and the counters hold the numbers of symbols and of bits modulo
`2^32`. -/
def Obligations.EncoderContractOnSuccess : Prop :=
  ∀ (k : Nat) (s t : State) (items : List Instr) (xs : List Sym) (bits : Bits) (a a' : Sym) (b b' : Len) (d d' : Code),
    s.resetFree → s.hse.state = .idle → s.hse.err = .none → s.hse.shn = 0 → pushedSymbols items = some xs →
    s.cmds = (Instr.start a b d :: items ++ [Instr.endStream a' b' d']).map encode → s.hse.encoderOutput xs = some bits →
    Host.Core.run core k s = .next t → t.cmds = [] →
    t.hse.sinceStart = bits ∧ t.hse.out = s.hse.out ++ bits ∧ t.hse.state = .idle ∧ t.hse.err = .none ∧
    t.hse.symcnt = BitVec.ofNat 32 xs.length ∧ t.hse.bitcnt = BitVec.ofNat 32 bits.length ∧ t.hse.shn = 0 ∧
    t.hse.table = s.hse.table

/-- 41_stream_commands.md R104, the stream that fails at the first symbol with no codeword: the bits before it have left, the
error registers name it, the counters stand where it stood, and everything after it was discarded. -/
def Obligations.EncoderContractOnAMissingCode : Prop :=
  ∀ (k : Nat) (s t : State) (items : List Instr) (ys zs : List Sym) (x : Sym) (bits : Bits)
    (a a' : Sym) (b b' : Len) (d d' : Code),
    s.resetFree → s.hse.state = .idle → s.hse.shn = 0 → pushedSymbols items = some (ys ++ x :: zs) →
    s.cmds = (Instr.start a b d :: items ++ [Instr.endStream a' b' d']).map encode →
    s.hse.encoderOutput ys = some bits → s.hse.lookup x = none →
    Host.Core.run core k s = .next t → t.cmds = [] →
    t.hse.sinceStart = bits ∧ t.hse.state = .error ∧ t.hse.err = .missingCode ∧ t.hse.errop = 0x4 ∧ t.hse.errsym = x ∧
    t.hse.symcnt = BitVec.ofNat 32 ys.length ∧ t.hse.bitcnt = BitVec.ofNat 32 bits.length ∧ t.hse.shn = 0 ∧
    t.hse.table = s.hse.table

/-! The host's software. -/

/-- 43_host_side_pipeline.md R131, R132: the FrequencyCounter gives every symbol of the input exactly one entry, equal to its
number of occurrences, and no symbol that does not occur. -/
def Obligations.FrequenciesAreOccurrenceCounts : Prop :=
  ∀ input : List Sym, ((countFrequencies input).map Prod.fst).Nodup ∧
    ∀ (x : Sym) (n : Nat), (x, n) ∈ countFrequencies input ↔ n = input.count x ∧ 0 < n

/-- 43_host_side_pipeline.md R133, R139, R140, R141: whatever the implementation's choices (log entry 17), the code table of an input has
exactly one entry for each of its symbols and no other, no codeword is empty, no codeword is the beginning of another's, and an
input with one distinct symbol has a codeword of one bit; an empty input fails with InvalidInput. -/
def Obligations.CodeTableIsPrefixFreeAndCovering : Prop :=
  (∀ ch, codeTableOf ch [] = .error .invalidInput) ∧
  ∀ (ch : BuildChoices) (input : List Sym), input ≠ [] → ∃ t, codeTableOf ch input = .ok t ∧
    (t.map Prod.fst).Nodup ∧ (∀ x, x ∈ t.map Prod.fst ↔ x ∈ input) ∧ (∀ e ∈ t, e.2 ≠ []) ∧
    t.Pairwise (fun e f => ¬ e.2 <+: f.2 ∧ ¬ f.2 <+: e.2) ∧
    ((∀ x ∈ input, ∀ y ∈ input, x = y) → ∀ e ∈ t, e.2 = [ch.loneBit])

/-- 43_host_side_pipeline.md R135, R140, the bound 00_scope.md R7 takes from them: whatever the choices of log entry 17, with `k`
distinct symbols no codeword is longer than `k - 1` bits when `k` is at least 2, nor than one bit when `k` is 1, and so every
length is at most the default `L_MAX`. -/
def Obligations.CodewordsFitTheTable : Prop :=
  ∀ (ch : BuildChoices) (input : List Sym) (t : CodeTable), codeTableOf ch input = .ok t →
    t.length = (countFrequencies input).length ∧ t.length ≤ 256 ∧
    ∀ e ∈ t, e.2.length ≤ max 1 (t.length - 1) ∧ e.2.length ≤ 255

/-- 43_host_side_pipeline.md R143 steps 1 to 6 with 41_stream_commands.md R104: one `encode` call of the host on HSE. From a block
in IDLE, the commands the host issues for a non-empty input, under any schedule without a reset, end in IDLE with no error, and
the bits transferred since `START` are the Encoder's output for the host's own code table, which is what the host reads, whatever
the choices of log entry 17 and whatever result it held before. -/
def Obligations.EncodeCallGivesTheEncodedOutput : Prop :=
  ∀ (ch : BuildChoices) (input : List Sym), input ≠ [] →
    ∃ (table : CodeTable) (is : List Instr) (bits : Bits),
      encodeCall ch input = .ok (table, is) ∧ table.encode input = .ok bits ∧
      ∀ (k : Nat) (s t : State), s.resetFree → s.hse.state = .idle → s.hse.err = .none → s.hse.shn = 0 →
        s.cmds = is.map encode → Host.Core.run core k s = .next t → t.cmds = [] →
        t.hse.state = .idle ∧ t.hse.err = .none ∧ t.hse.sinceStart = bits ∧
        t.hse.symcnt = BitVec.ofNat 32 input.length ∧ t.hse.bitcnt = BitVec.ofNat 32 bits.length ∧
        ∀ held, t.result table (latestResult k held s) = some (.encoded table bits)

/-- 43_host_side_pipeline.md R143 step 4, 40_table_commands.md R91: every table of the host's software loads, in any order of its
`LOAD`s. From IDLE with no bit pending the commands change nothing but the table, every symbol's lookup is then its codeword, or
none where it has none, and the order makes no difference to the block. -/
def Obligations.EveryHostTableLoadsInAnyOrder : Prop :=
  ∀ (ch : BuildChoices) (input : List Sym) (table order : CodeTable) (h : Hse Config.hse),
    codeTableOf ch input = .ok table → order.Perm table → h.state = .idle → h.shn = 0 →
    ∃ t : Table Config.hse, Hse.runWords (order.loadCommands.map encode) h = { h with table := t } ∧
      (∀ x, ({ h with table := t } : Hse Config.hse).lookup x = table.code? x) ∧
      Hse.runWords (table.loadCommands.map encode) h = { h with table := t }

/-- 43_host_side_pipeline.md R143 step 6, 60_exceptions.md R164: what the host reads from a block that meets the invariants, at
every configuration and with any result held. In IDLE it is that result, or, where no stream completed, that there is none
(log entry 20, DESIGN CHOICE); in ERROR the call is a fatal failure with the recorded cause, one of codes 2 to 5; while the stream
is open there is no answer (log entry 19, DESIGN CHOICE). -/
def Obligations.HostReadsTheOutcome : Prop :=
  ∀ (c : Config) (h : Hse c) (table : CodeTable) (held : Option Bits) (rst : Bool), h.inv →
    (h.state = .idle → ∀ bits, held = some bits →
      readResult table held (h.ports rst).status = some (.encoded table bits)) ∧
    (h.state = .idle → held = none → readResult table held (h.ports rst).status = some .noResult) ∧
    (h.state = .error → ∃ cause, readResult table held (h.ports rst).status = some (.fatal cause) ∧
      2 ≤ cause.toNat ∧ cause.toNat ≤ 5 ∧ cause = h.err.code) ∧
    (h.state = .active → readResult table held (h.ports rst).status = none)

/-- 43_host_side_pipeline.md R133, R143: the `encode` call as the host's caller sees it, on a machine whose host has nothing else
to issue, whatever the choices of log entry 17. Whenever it answers, under any schedule without a reset, it answers InvalidInput
for an empty input and the CodeTable with the Encoder's output for any other; and under a schedule that in the end is always
ready (log entry 14) it does answer. -/
def Obligations.EncodeCallAnswersItsCaller : Prop :=
  ∀ (ch : BuildChoices) (input : List Sym) (s : State),
    s.cmds = [] → s.hse.state = .idle → s.hse.err = .none → s.hse.shn = 0 →
    (s.resetFree → ∀ (k : Nat) (r : CallResult), encodeOn ch input k s = some r →
      (input = [] ∧ r = .invalidInput) ∨
      (input ≠ [] ∧ ∃ table bits, codeTableOf ch input = .ok table ∧ table.encode input = .ok bits ∧
        r = .encoded table bits)) ∧
    (s.fair → ∃ k, (encodeOn ch input k s).isSome = true)

/-- 00_scope.md R17, R19, 60_exceptions.md R164, 70_reset_and_hazards.md R197: along any run, resets included, a host that begins
with no result holds one exactly when some edge completed a stream with it and the block has been in IDLE ever since. That nothing
but a completed stream's result is held is the rules'. When it is kept is the model's choice (log entry 20): that a reset in IDLE
leaves it is DEDUCED, and that an error entered from IDLE, where no stream is open, drops it for good is a DESIGN CHOICE. Without a
reset it is the bits transferred since `START`, as 43_host_side_pipeline.md R143 step 6 reads them. -/
def Obligations.HostHoldsOnlyCompletedResults : Prop :=
  ∀ (k : Nat) (s t : State) (r : Bits), Host.Core.run core k s = .next t →
    (latestResult k none s = some r ↔
      ∃ j u, j < k ∧ Host.Core.run core j s = .next u ∧ u.streamEnd = some (.completed r) ∧
        ∀ i v, j < i → i ≤ k → Host.Core.run core i s = .next v → v.hse.state = .idle) ∧
    (s.resetFree → latestResult k none s = some r → r = t.hse.sinceStart)

/-- 00_scope.md R17, R19, 43_host_side_pipeline.md R143, 60_exceptions.md R164 (no partial result): whatever the schedule, resets at
any edges included, whatever the machine's state before and whatever the choices of log entry 17, an `encode` call that answers
an output answers the input's own code table with the Encoder's whole output for it. -/
def Obligations.EncodeCallAnswersNoPartialResult : Prop :=
  ∀ (ch : BuildChoices) (input : List Sym) (k : Nat) (s : State) (table : CodeTable) (bits : Bits),
    encodeOn ch input k s = some (.encoded table bits) →
    codeTableOf ch input = .ok table ∧ table.encode input = .ok bits
end

