-- ==== Sys2Proof/Laws/State.lean ====
section
/-! SUPPORT. One lemma per field per named update of the block and of the machine, each true by rfl, so that no later proof
unfolds a record update. -/

namespace Sys2Proof.Machine

variable {c : Config}

/-! The fields after error entry (60_exceptions.md R160). -/

@[simp] theorem Hse.raise_state (cause : Cause) (cmd : Cmd c) (h : Hse c) : (h.raise cause cmd).state = .error := rfl
@[simp] theorem Hse.raise_err (cause : Cause) (cmd : Cmd c) (h : Hse c) : (h.raise cause cmd).err = cause := rfl
@[simp] theorem Hse.raise_errop (cause : Cause) (cmd : Cmd c) (h : Hse c) : (h.raise cause cmd).errop = cmd.op := rfl
@[simp] theorem Hse.raise_errsym (cause : Cause) (cmd : Cmd c) (h : Hse c) : (h.raise cause cmd).errsym = cmd.sym := rfl
@[simp] theorem Hse.raise_symcnt (cause : Cause) (cmd : Cmd c) (h : Hse c) : (h.raise cause cmd).symcnt = h.symcnt := rfl
@[simp] theorem Hse.raise_bitcnt (cause : Cause) (cmd : Cmd c) (h : Hse c) : (h.raise cause cmd).bitcnt = h.bitcnt := rfl
@[simp] theorem Hse.raise_table (cause : Cause) (cmd : Cmd c) (h : Hse c) : (h.raise cause cmd).table = h.table := rfl
@[simp] theorem Hse.raise_sh (cause : Cause) (cmd : Cmd c) (h : Hse c) : (h.raise cause cmd).sh = h.sh := rfl
@[simp] theorem Hse.raise_shn (cause : Cause) (cmd : Cmd c) (h : Hse c) : (h.raise cause cmd).shn = h.shn := rfl
@[simp] theorem Hse.raise_out (cause : Cause) (cmd : Cmd c) (h : Hse c) : (h.raise cause cmd).out = h.out := rfl
@[simp] theorem Hse.raise_mark (cause : Cause) (cmd : Cmd c) (h : Hse c) : (h.raise cause cmd).mark = h.mark := rfl

/-! The fields after the return to IDLE (60_exceptions.md R165). -/

@[simp] theorem Hse.clearError_state (h : Hse c) : (h.clearError).state = .idle := rfl
@[simp] theorem Hse.clearError_err (h : Hse c) : (h.clearError).err = .none := rfl
@[simp] theorem Hse.clearError_errop (h : Hse c) : (h.clearError).errop = 0 := rfl
@[simp] theorem Hse.clearError_errsym (h : Hse c) : (h.clearError).errsym = 0 := rfl
@[simp] theorem Hse.clearError_symcnt (h : Hse c) : (h.clearError).symcnt = h.symcnt := rfl
@[simp] theorem Hse.clearError_bitcnt (h : Hse c) : (h.clearError).bitcnt = h.bitcnt := rfl
@[simp] theorem Hse.clearError_table (h : Hse c) : (h.clearError).table = h.table := rfl
@[simp] theorem Hse.clearError_sh (h : Hse c) : (h.clearError).sh = h.sh := rfl
@[simp] theorem Hse.clearError_shn (h : Hse c) : (h.clearError).shn = h.shn := rfl
@[simp] theorem Hse.clearError_out (h : Hse c) : (h.clearError).out = h.out := rfl
@[simp] theorem Hse.clearError_mark (h : Hse c) : (h.clearError).mark = h.mark := rfl

/-! The fields after emptying the table (40_table_commands.md R90). -/

@[simp] theorem Hse.emptyTable_state (h : Hse c) : (h.emptyTable).state = h.state := rfl
@[simp] theorem Hse.emptyTable_err (h : Hse c) : (h.emptyTable).err = h.err := rfl
@[simp] theorem Hse.emptyTable_errop (h : Hse c) : (h.emptyTable).errop = h.errop := rfl
@[simp] theorem Hse.emptyTable_errsym (h : Hse c) : (h.emptyTable).errsym = h.errsym := rfl
@[simp] theorem Hse.emptyTable_symcnt (h : Hse c) : (h.emptyTable).symcnt = h.symcnt := rfl
@[simp] theorem Hse.emptyTable_bitcnt (h : Hse c) : (h.emptyTable).bitcnt = h.bitcnt := rfl
@[simp] theorem Hse.emptyTable_table (h : Hse c) : (h.emptyTable).table = [] := rfl
@[simp] theorem Hse.emptyTable_sh (h : Hse c) : (h.emptyTable).sh = h.sh := rfl
@[simp] theorem Hse.emptyTable_shn (h : Hse c) : (h.emptyTable).shn = h.shn := rfl
@[simp] theorem Hse.emptyTable_out (h : Hse c) : (h.emptyTable).out = h.out := rfl
@[simp] theorem Hse.emptyTable_mark (h : Hse c) : (h.emptyTable).mark = h.mark := rfl

/-! The fields after writing an entry (40_table_commands.md R91). -/

@[simp] theorem Hse.setEntry_state (sym : BitVec c.symW) (e : Entry c) (h : Hse c) : (h.setEntry sym e).state = h.state := rfl
@[simp] theorem Hse.setEntry_err (sym : BitVec c.symW) (e : Entry c) (h : Hse c) : (h.setEntry sym e).err = h.err := rfl
@[simp] theorem Hse.setEntry_errop (sym : BitVec c.symW) (e : Entry c) (h : Hse c) : (h.setEntry sym e).errop = h.errop := rfl
@[simp] theorem Hse.setEntry_errsym (sym : BitVec c.symW) (e : Entry c) (h : Hse c) : (h.setEntry sym e).errsym = h.errsym := rfl
@[simp] theorem Hse.setEntry_symcnt (sym : BitVec c.symW) (e : Entry c) (h : Hse c) : (h.setEntry sym e).symcnt = h.symcnt := rfl
@[simp] theorem Hse.setEntry_bitcnt (sym : BitVec c.symW) (e : Entry c) (h : Hse c) : (h.setEntry sym e).bitcnt = h.bitcnt := rfl
@[simp] theorem Hse.setEntry_table (sym : BitVec c.symW) (e : Entry c) (h : Hse c) : (h.setEntry sym e).table = Table.write h.table sym.toNat e := rfl
@[simp] theorem Hse.setEntry_sh (sym : BitVec c.symW) (e : Entry c) (h : Hse c) : (h.setEntry sym e).sh = h.sh := rfl
@[simp] theorem Hse.setEntry_shn (sym : BitVec c.symW) (e : Entry c) (h : Hse c) : (h.setEntry sym e).shn = h.shn := rfl
@[simp] theorem Hse.setEntry_out (sym : BitVec c.symW) (e : Entry c) (h : Hse c) : (h.setEntry sym e).out = h.out := rfl
@[simp] theorem Hse.setEntry_mark (sym : BitVec c.symW) (e : Entry c) (h : Hse c) : (h.setEntry sym e).mark = h.mark := rfl

/-! The fields after the counters' advance (10_state.md R27, R28). -/

@[simp] theorem Hse.count_state (len : BitVec c.lenW) (h : Hse c) : (h.count len).state = h.state := rfl
@[simp] theorem Hse.count_err (len : BitVec c.lenW) (h : Hse c) : (h.count len).err = h.err := rfl
@[simp] theorem Hse.count_errop (len : BitVec c.lenW) (h : Hse c) : (h.count len).errop = h.errop := rfl
@[simp] theorem Hse.count_errsym (len : BitVec c.lenW) (h : Hse c) : (h.count len).errsym = h.errsym := rfl
@[simp] theorem Hse.count_symcnt (len : BitVec c.lenW) (h : Hse c) : (h.count len).symcnt = h.symcnt + 1 := rfl
@[simp] theorem Hse.count_bitcnt (len : BitVec c.lenW) (h : Hse c) : (h.count len).bitcnt = h.bitcnt + len.setWidth c.cntW := rfl
@[simp] theorem Hse.count_table (len : BitVec c.lenW) (h : Hse c) : (h.count len).table = h.table := rfl
@[simp] theorem Hse.count_sh (len : BitVec c.lenW) (h : Hse c) : (h.count len).sh = h.sh := rfl
@[simp] theorem Hse.count_shn (len : BitVec c.lenW) (h : Hse c) : (h.count len).shn = h.shn := rfl
@[simp] theorem Hse.count_out (len : BitVec c.lenW) (h : Hse c) : (h.count len).out = h.out := rfl
@[simp] theorem Hse.count_mark (len : BitVec c.lenW) (h : Hse c) : (h.count len).mark = h.mark := rfl

/-! The fields after the emit step (41_stream_commands.md R110). -/

@[simp] theorem Hse.emit_state (h : Hse c) : (h.emit).state = h.state := rfl
@[simp] theorem Hse.emit_err (h : Hse c) : (h.emit).err = h.err := rfl
@[simp] theorem Hse.emit_errop (h : Hse c) : (h.emit).errop = h.errop := rfl
@[simp] theorem Hse.emit_errsym (h : Hse c) : (h.emit).errsym = h.errsym := rfl
@[simp] theorem Hse.emit_symcnt (h : Hse c) : (h.emit).symcnt = h.symcnt := rfl
@[simp] theorem Hse.emit_bitcnt (h : Hse c) : (h.emit).bitcnt = h.bitcnt := rfl
@[simp] theorem Hse.emit_table (h : Hse c) : (h.emit).table = h.table := rfl
@[simp] theorem Hse.emit_sh (h : Hse c) : (h.emit).sh = h.sh := rfl
@[simp] theorem Hse.emit_shn (h : Hse c) : (h.emit).shn = h.shn - 1 := rfl
@[simp] theorem Hse.emit_out (h : Hse c) : (h.emit).out = h.out ++ [h.nextBit] := rfl
@[simp] theorem Hse.emit_mark (h : Hse c) : (h.emit).mark = h.mark := rfl

/-! The fields after opening a stream (41_stream_commands.md R100). -/

@[simp] theorem Hse.openStream_state (h : Hse c) : (h.openStream).state = .active := rfl
@[simp] theorem Hse.openStream_err (h : Hse c) : (h.openStream).err = h.err := rfl
@[simp] theorem Hse.openStream_errop (h : Hse c) : (h.openStream).errop = h.errop := rfl
@[simp] theorem Hse.openStream_errsym (h : Hse c) : (h.openStream).errsym = h.errsym := rfl
@[simp] theorem Hse.openStream_symcnt (h : Hse c) : (h.openStream).symcnt = 0 := rfl
@[simp] theorem Hse.openStream_bitcnt (h : Hse c) : (h.openStream).bitcnt = 0 := rfl
@[simp] theorem Hse.openStream_table (h : Hse c) : (h.openStream).table = h.table := rfl
@[simp] theorem Hse.openStream_sh (h : Hse c) : (h.openStream).sh = h.sh := rfl
@[simp] theorem Hse.openStream_shn (h : Hse c) : (h.openStream).shn = h.shn := rfl
@[simp] theorem Hse.openStream_out (h : Hse c) : (h.openStream).out = h.out := rfl
@[simp] theorem Hse.openStream_mark (h : Hse c) : (h.openStream).mark = h.out.length := rfl

/-! The fields after queueing a codeword (41_stream_commands.md R101). -/

@[simp] theorem Hse.queue_state (e : Entry c) (h : Hse c) : (h.queue e).state = h.state := rfl
@[simp] theorem Hse.queue_err (e : Entry c) (h : Hse c) : (h.queue e).err = h.err := rfl
@[simp] theorem Hse.queue_errop (e : Entry c) (h : Hse c) : (h.queue e).errop = h.errop := rfl
@[simp] theorem Hse.queue_errsym (e : Entry c) (h : Hse c) : (h.queue e).errsym = h.errsym := rfl
@[simp] theorem Hse.queue_symcnt (e : Entry c) (h : Hse c) : (h.queue e).symcnt = h.symcnt + 1 := rfl
@[simp] theorem Hse.queue_bitcnt (e : Entry c) (h : Hse c) : (h.queue e).bitcnt = h.bitcnt + e.len.setWidth c.cntW := rfl
@[simp] theorem Hse.queue_table (e : Entry c) (h : Hse c) : (h.queue e).table = h.table := rfl
@[simp] theorem Hse.queue_sh (e : Entry c) (h : Hse c) : (h.queue e).sh = e.code := rfl
@[simp] theorem Hse.queue_shn (e : Entry c) (h : Hse c) : (h.queue e).shn = e.len := rfl
@[simp] theorem Hse.queue_out (e : Entry c) (h : Hse c) : (h.queue e).out = h.out := rfl
@[simp] theorem Hse.queue_mark (e : Entry c) (h : Hse c) : (h.queue e).mark = h.mark := rfl

/-! The fields after closing a stream (41_stream_commands.md R102). -/

@[simp] theorem Hse.closeStream_state (h : Hse c) : (h.closeStream).state = .idle := rfl
@[simp] theorem Hse.closeStream_err (h : Hse c) : (h.closeStream).err = h.err := rfl
@[simp] theorem Hse.closeStream_errop (h : Hse c) : (h.closeStream).errop = h.errop := rfl
@[simp] theorem Hse.closeStream_errsym (h : Hse c) : (h.closeStream).errsym = h.errsym := rfl
@[simp] theorem Hse.closeStream_symcnt (h : Hse c) : (h.closeStream).symcnt = h.symcnt := rfl
@[simp] theorem Hse.closeStream_bitcnt (h : Hse c) : (h.closeStream).bitcnt = h.bitcnt := rfl
@[simp] theorem Hse.closeStream_table (h : Hse c) : (h.closeStream).table = h.table := rfl
@[simp] theorem Hse.closeStream_sh (h : Hse c) : (h.closeStream).sh = h.sh := rfl
@[simp] theorem Hse.closeStream_shn (h : Hse c) : (h.closeStream).shn = h.shn := rfl
@[simp] theorem Hse.closeStream_out (h : Hse c) : (h.closeStream).out = h.out := rfl
@[simp] theorem Hse.closeStream_mark (h : Hse c) : (h.closeStream).mark = h.mark := rfl

/-! The fields of the block after reset (10_state.md R35). -/

@[simp] theorem Hse.reset_state : (Hse.reset c).state = .idle := rfl
@[simp] theorem Hse.reset_err : (Hse.reset c).err = .none := rfl
@[simp] theorem Hse.reset_errop : (Hse.reset c).errop = 0 := rfl
@[simp] theorem Hse.reset_errsym : (Hse.reset c).errsym = 0 := rfl
@[simp] theorem Hse.reset_symcnt : (Hse.reset c).symcnt = 0 := rfl
@[simp] theorem Hse.reset_bitcnt : (Hse.reset c).bitcnt = 0 := rfl
@[simp] theorem Hse.reset_table : (Hse.reset c).table = [] := rfl
@[simp] theorem Hse.reset_sh : (Hse.reset c).sh = 0 := rfl
@[simp] theorem Hse.reset_shn : (Hse.reset c).shn = 0 := rfl
@[simp] theorem Hse.reset_out : (Hse.reset c).out = [] := rfl
@[simp] theorem Hse.reset_mark : (Hse.reset c).mark = 0 := rfl

/-! The fields of the machine after an effect on the block and after an edge. -/

@[simp] theorem State.onBlock_hse (f : Hse Config.hse → Hse Config.hse) (s : State) : (s.onBlock f).hse = f s.hse := rfl
@[simp] theorem State.onBlock_cmds (f : Hse Config.hse → Hse Config.hse) (s : State) : (s.onBlock f).cmds = s.cmds := rfl
@[simp] theorem State.onBlock_edges (f : Hse Config.hse → Hse Config.hse) (s : State) : (s.onBlock f).edges = s.edges := rfl
@[simp] theorem State.onBlock_later (f : Hse Config.hse → Hse Config.hse) (s : State) : (s.onBlock f).later = s.later := rfl

@[simp] theorem State.pastEdge_hse (s : State) : (s.pastEdge).hse = s.hse := rfl
@[simp] theorem State.pastEdge_cmds (s : State) : (s.pastEdge).cmds = s.cmds := rfl
@[simp] theorem State.pastEdge_edges (s : State) : (s.pastEdge).edges = s.edges.tail := rfl
@[simp] theorem State.pastEdge_later (s : State) : (s.pastEdge).later = s.later := rfl

@[simp] theorem State.pastCommand_hse (s : State) : (s.pastCommand).hse = s.hse := rfl
@[simp] theorem State.pastCommand_cmds (s : State) : (s.pastCommand).cmds = s.cmds.tail := rfl
@[simp] theorem State.pastCommand_edges (s : State) : (s.pastCommand).edges = s.edges.tail := rfl
@[simp] theorem State.pastCommand_later (s : State) : (s.pastCommand).later = s.later := rfl

@[simp] theorem State.takeReset_hse (s : State) : (s.takeReset).hse = Hse.reset Config.hse := rfl
@[simp] theorem State.takeReset_cmds (s : State) : (s.takeReset).cmds = s.cmds := rfl
@[simp] theorem State.takeReset_edges (s : State) : (s.takeReset).edges = s.edges.tail := rfl
@[simp] theorem State.takeReset_later (s : State) : (s.takeReset).later = s.later := rfl

@[simp] theorem State.takeTransfer_hse (s : State) : (s.takeTransfer).hse = s.hse.emit := rfl
@[simp] theorem State.takeTransfer_cmds (s : State) : (s.takeTransfer).cmds = s.cmds := rfl
@[simp] theorem State.takeTransfer_edges (s : State) : (s.takeTransfer).edges = s.edges.tail := rfl
@[simp] theorem State.takeTransfer_later (s : State) : (s.takeTransfer).later = s.later := rfl

@[simp] theorem State.offerNext_hse (w : CmdWord) (s : State) : (s.offerNext w).hse = s.hse := rfl
@[simp] theorem State.offerNext_cmds (w : CmdWord) (s : State) : (s.offerNext w).cmds = w :: s.cmds.tail := rfl
@[simp] theorem State.offerNext_edges (w : CmdWord) (s : State) : (s.offerNext w).edges = { s.now with rst := false, offer := true } :: s.edges.tail := rfl
@[simp] theorem State.offerNext_later (w : CmdWord) (s : State) : (s.offerNext w).later = s.later := rfl

end Sys2Proof.Machine
end

