-- ==== Sys2Proof/Laws/Table.lean ====
section
/-! SUPPORT. The code table: reading back a write, what a write leaves alone, that every operation keeps the canonical form,
and that equal readings are equal tables (20_memory.md R50 to R56). -/

namespace Sys2Proof.Machine

variable {c : Config}

@[simp] theorem Table.read_nil (a : Nat) : Table.read ([] : Table c) a = Entry.empty c := rfl

/-- An address no cell lists reads as the empty entry. -/
theorem Table.read_unlisted (t : Table c) (a : Nat) (h : ∀ cell ∈ t, cell.1 ≠ a) :
    Table.read t a = Entry.empty c := by
  induction t with
  | nil => rfl
  | cons cell t ih =>
    have hc : a ≠ cell.1 := fun e => h cell (by simp) e.symm
    simp only [Table.read, if_neg hc]
    exact ih fun x hx => h x (by simp [hx])

/-- What is read is a listed entry or the empty one. -/
theorem Table.read_mem (t : Table c) (a : Nat) : (a, Table.read t a) ∈ t ∨ Table.read t a = Entry.empty c := by
  induction t with
  | nil => right; rfl
  | cons cell t ih =>
    by_cases hc : a = cell.1
    · left; simp [Table.read, hc]
    · rcases ih with h | h
      · left; simp [Table.read, hc, h]
      · right; simp [Table.read, hc, h]

/-- A listed entry of a canonical table is what its address reads as. -/
theorem Table.read_of_mem (t : Table c) (hw : Table.wf t) (cell : Nat × Entry c) (hm : cell ∈ t) :
    Table.read t cell.1 = cell.2 := by
  induction t with
  | nil => simp at hm
  | cons x t ih =>
    have hp := List.pairwise_cons.mp hw.1
    rcases List.mem_cons.mp hm with rfl | hm
    · simp [Table.read]
    · have : cell.1 ≠ x.1 := Nat.ne_of_gt (hp.1 cell hm)
      simp only [Table.read, if_neg this]
      exact ih ⟨hp.2, fun y hy => hw.2 y (by simp [hy])⟩ hm

/-- Reading the address just written gives the entry written (20_memory.md R59 item 2). -/
theorem Table.read_write_same (t : Table c) (hw : Table.wf t) (a : Nat) (e : Entry c) :
    Table.read (Table.write t a e) a = e := by
  induction t with
  | nil => by_cases he : e = Entry.empty c <;> simp [Table.write, Table.read, he]
  | cons cell t ih =>
    have hp := List.pairwise_cons.mp hw.1
    have hlate : a ≤ cell.1 → Table.read t a = Entry.empty c := fun ha =>
      Table.read_unlisted t a fun x hx => by have := hp.1 x hx; omega
    by_cases h1 : a < cell.1
    · by_cases he : e = Entry.empty c
      · simp [Table.write, h1, he, Table.read, Nat.ne_of_lt h1, hlate (Nat.le_of_lt h1)]
      · simp [Table.write, h1, he, Table.read]
    · by_cases h2 : a = cell.1
      · by_cases he : e = Entry.empty c
        · rw [show Table.write (cell :: t) a e = t by simp [Table.write, he, h2]]
          exact (hlate (Nat.le_of_eq h2)).trans he.symm
        · simp [Table.write, he, h2, Table.read]
      · simp only [Table.write, h1, if_false, h2, Table.read]
        exact ih ⟨hp.2, fun y hy => hw.2 y (by simp [hy])⟩

/-- Writing an entry that is not empty is read back from any table, canonical or not. -/
theorem Table.read_write_nonempty (t : Table c) (a : Nat) (e : Entry c) (he : e ≠ Entry.empty c) :
    Table.read (Table.write t a e) a = e := by
  induction t with
  | nil => simp [Table.write, Table.read, he]
  | cons cell t ih =>
    by_cases h1 : a < cell.1
    · simp [Table.write, h1, he, Table.read]
    · by_cases h2 : a = cell.1
      · simp [Table.write, he, h2, Table.read]
      · simp only [Table.write, h1, if_false, h2, Table.read, ih]

/-- "A table write has no effect on any other entry" (20_memory.md R55). -/
theorem Table.read_write_other (t : Table c) (a b : Nat) (e : Entry c) (hab : b ≠ a) :
    Table.read (Table.write t a e) b = Table.read t b := by
  induction t with
  | nil => by_cases he : e = Entry.empty c <;> simp [Table.write, Table.read, he, hab]
  | cons cell t ih =>
    by_cases h1 : a < cell.1
    · by_cases he : e = Entry.empty c <;> simp [Table.write, h1, he, Table.read, hab]
    · by_cases h2 : a = cell.1
      · have hb : b ≠ cell.1 := h2 ▸ hab
        by_cases he : e = Entry.empty c <;> simp [Table.write, he, h2, Table.read, hb]
      · simp only [Table.write, h1, if_false, h2, Table.read, ih]

theorem Table.mem_write (t : Table c) (a : Nat) (e : Entry c) (cell : Nat × Entry c)
    (hm : cell ∈ Table.write t a e) : cell ∈ t ∨ (cell = (a, e) ∧ e ≠ Entry.empty c) := by
  induction t with
  | nil => by_cases he : e = Entry.empty c <;> simp_all [Table.write]
  | cons x t ih =>
    by_cases h1 : a < x.1
    · by_cases he : e = Entry.empty c <;> simp_all [Table.write]; tauto
    · by_cases h2 : a = x.1
      · by_cases he : e = Entry.empty c <;> simp_all [Table.write]; tauto
      · simp only [Table.write, h1, if_false, h2, List.mem_cons] at hm ⊢
        rcases hm with rfl | hm
        · exact .inl (.inl rfl)
        · rcases ih hm with h | h
          · exact .inl (.inr h)
          · exact .inr h

/-- Every write at an address of the table space keeps the canonical form. -/
theorem Table.write_wf (t : Table c) (hw : Table.wf t) (a : Nat) (ha : a < c.nEnt) (e : Entry c) :
    Table.wf (Table.write t a e) := by
  refine ⟨?_, fun cell hm => ?_⟩
  · have hp := hw.1
    clear hw
    induction t with
    | nil => by_cases he : e = Entry.empty c <;> simp [Table.write, he]
    | cons x t ih =>
      have hx := List.pairwise_cons.mp hp
      by_cases h1 : a < x.1
      · by_cases he : e = Entry.empty c
        · simpa [Table.write, h1, he] using hx
        · simp only [Table.write, h1, if_true, he, if_false, List.pairwise_cons]
          refine ⟨fun y hy => ?_, hx⟩
          rcases List.mem_cons.mp hy with rfl | hy
          · exact h1
          · exact Nat.lt_trans h1 (hx.1 y hy)
      · by_cases h2 : a = x.1
        · by_cases he : e = Entry.empty c
          · simpa [Table.write, he, h2] using hx.2
          · simpa [Table.write, he, h2] using hx
        · simp only [Table.write, h1, if_false, h2, List.pairwise_cons]
          refine ⟨fun y hy => ?_, ih hx.2⟩
          rcases Table.mem_write t a e y hy with h | ⟨rfl, -⟩
          · exact hx.1 y h
          · show x.1 < a
            omega
  · rcases Table.mem_write t a e cell hm with h | ⟨rfl, he⟩
    · exact hw.2 cell h
    · exact ⟨ha, he⟩

/-- Canonical tables that read alike are the same table. -/
theorem Table.eq_of_read (t u : Table c) (ht : Table.wf t) (hu : Table.wf u) (h : ∀ a, Table.read t a = Table.read u a) :
    t = u := by
  induction t generalizing u with
  | nil =>
    cases u with
    | nil => rfl
    | cons y u =>
      have := h y.1
      rw [Table.read_of_mem _ hu y (by simp)] at this
      exact absurd this.symm (hu.2 y (by simp)).2
  | cons x t ih =>
    have hx := List.pairwise_cons.mp ht.1
    have hx0 := (ht.2 x (by simp)).2
    have hrx := Table.read_of_mem _ ht x (by simp)
    cases u with
    | nil => exact absurd (hrx.symm.trans (h x.1)) hx0
    | cons y u =>
      have hy := List.pairwise_cons.mp hu.1
      have hy0 := (hu.2 y (by simp)).2
      have hry := Table.read_of_mem _ hu y (by simp)
      have haddr : x.1 = y.1 := by
        rcases Nat.lt_trichotomy x.1 y.1 with hlt | heq | hlt
        · refine absurd (hrx.symm.trans ((h x.1).trans (Table.read_unlisted _ _ fun z hz => ?_))) hx0
          rcases List.mem_cons.mp hz with rfl | hz
          · omega
          · have := hy.1 z hz; omega
        · exact heq
        · refine absurd (hry.symm.trans ((h y.1).symm.trans (Table.read_unlisted _ _ fun z hz => ?_))) hy0
          rcases List.mem_cons.mp hz with rfl | hz
          · omega
          · have := hx.1 z hz; omega
      have hentry : x.2 = y.2 := by rw [← hrx, h x.1, haddr, hry]
      have htail : t = u := by
        refine ih u ⟨hx.2, fun z hz => ht.2 z (by simp [hz])⟩ ⟨hy.2, fun z hz => hu.2 z (by simp [hz])⟩ fun a => ?_
        by_cases ha : a = x.1
        · rw [Table.read_unlisted t a fun z hz => by have := hx.1 z hz; omega,
            Table.read_unlisted u a fun z hz => by have := hy.1 z hz; omega]
        · have := h a
          simpa [Table.read, ha, haddr ▸ ha] using this
      rw [htail, Prod.ext haddr hentry]

@[simp] theorem Table.nil_wf : Table.wf ([] : Table c) := by simp [Table.wf]

/-- The reset table has the canonical form. -/
theorem Hse.reset_table_wf : Table.wf (Hse.reset c).table := Table.nil_wf

/-- Emptying the table keeps the canonical form. -/
theorem Hse.emptyTable_wf (h : Hse c) : Table.wf h.emptyTable.table := Table.nil_wf

/-- Writing the entry of a symbol keeps the canonical form: every symbol is an address (20_memory.md R51). -/
theorem Hse.setEntry_wf (h : Hse c) (hw : Table.wf h.table) (sym : BitVec c.symW) (e : Entry c) :
    Table.wf (h.setEntry sym e).table :=
  Table.write_wf _ hw _ sym.isLt _

/-- A symbol's entry in an emptied table. -/
@[simp] theorem Hse.entry_emptyTable (h : Hse c) (sym : BitVec c.symW) : h.emptyTable.entry sym = Entry.empty c := rfl

/-- The entry of another symbol is the one it was. -/
theorem Hse.entry_setEntry_other (h : Hse c) (s r : BitVec c.symW) (e : Entry c) (hrs : r ≠ s) :
    (h.setEntry s e).entry r = h.entry r :=
  Table.read_write_other _ _ _ _ fun hn => hrs (BitVec.eq_of_toNat_eq hn)

/-- The entry of the symbol written, for an entry that is not the empty one. -/
theorem Hse.entry_setEntry_same (h : Hse c) (s : BitVec c.symW) (e : Entry c) (he : e ≠ Entry.empty c) :
    (h.setEntry s e).entry s = e :=
  Table.read_write_nonempty _ _ _ he

/-- A symbol's entry depends on the table alone. -/
theorem Hse.entry_congr {h k : Hse c} (ht : h.table = k.table) (sym : BitVec c.symW) : h.entry sym = k.entry sym := by
  simp only [Hse.entry, ht]

/-- A symbol's lookup depends on the table alone. -/
theorem Hse.lookup_congr {h k : Hse c} (ht : h.table = k.table) (sym : BitVec c.symW) : h.lookup sym = k.lookup sym := by
  simp only [Hse.lookup, Hse.entry_congr ht]

end Sys2Proof.Machine
end

