-- ==== Sys2Proof/Laws/Word.lean ====
section
/-! SUPPORT. Bit sequences: the length of `seq_n`, its elements, and that `seq_n` and `val` are inverse to each other at the
length `n` (00_scope.md R12). -/

namespace Sys2Proof

@[simp] theorem seqBits_zero {w : Nat} (v : BitVec w) : seqBits 0 v = [] := rfl

@[simp] theorem seqBits_succ {w : Nat} (n : Nat) (v : BitVec w) :
    seqBits (n + 1) v = v.getLsbD n :: seqBits n v := rfl

@[simp] theorem length_seqBits {w : Nat} (n : Nat) (v : BitVec w) : (seqBits n v).length = n := by
  induction n with
  | zero => rfl
  | succ n ih => simp [ih]

/-- R12: element `i` of `seq_n(v)` is `v[n-1-i]`. -/
theorem getElem_seqBits {w : Nat} (n : Nat) (v : BitVec w) (i : Nat) (hi : i < (seqBits n v).length) :
    (seqBits n v)[i] = v.getLsbD (n - 1 - i) := by
  induction n generalizing i with
  | zero => simp at hi
  | succ n ih =>
    cases i with
    | zero => simp
    | succ i =>
      have hi' : i < (seqBits n v).length := by simpa using hi
      simp only [seqBits_succ, List.getElem_cons_succ, ih i hi']
      congr 1
      omega

theorem Bits.val_lt (q : Bits) : q.val < 2 ^ q.length := by
  induction q with
  | nil => simp [Bits.val]
  | cons b q ih =>
    have hb : b.toNat ≤ 1 := Bool.toNat_le b
    have : b.toNat * 2 ^ q.length ≤ 1 * 2 ^ q.length := Nat.mul_le_mul_right _ hb
    simp only [Bits.val, List.length_cons, Nat.pow_succ]
    omega

/-- The value of the low `n` bits is the value of the sequence. -/
theorem val_seqBits {w : Nat} (n : Nat) (v : BitVec w) : (seqBits n v).val = v.toNat % 2 ^ n := by
  induction n with
  | zero => simp [Bits.val, Nat.mod_one]
  | succ n ih =>
    have hb : (v.getLsbD n).toNat = v.toNat / 2 ^ n % 2 := by
      rw [BitVec.getLsbD, Nat.toNat_testBit]
    rw [seqBits_succ, Bits.val, ih, length_seqBits, hb, Nat.pow_succ, Nat.mod_mul]
    ring

/-- R12: `seq_n` is the inverse of `val` at length `n`, on words wide enough to hold the value. -/
theorem seqBits_val {w : Nat} (q : Bits) (hq : q.length ≤ w) :
    seqBits q.length (BitVec.ofNat w q.val) = q := by
  induction q with
  | nil => rfl
  | cons b q ih =>
    have hlt := Bits.val_lt q
    have hw : q.length < w := hq
    have key : ∀ n, n ≤ q.length →
        seqBits n (BitVec.ofNat w (Bits.val (b :: q))) = seqBits n (BitVec.ofNat w (Bits.val q)) := by
      intro n hn
      induction n with
      | zero => rfl
      | succ n ihn =>
        rw [seqBits_succ, seqBits_succ, ihn (by omega)]
        congr 1
        have hn' : n < w := by omega
        have hne : n ≠ q.length := by omega
        simp only [BitVec.getLsbD_ofNat, hn', decide_true, Bool.true_and, Bits.val]
        rw [Nat.mul_comm, Nat.testBit_two_pow_mul_add _ hlt]
        simp [show n < q.length by omega]
    rw [List.length_cons, seqBits_succ, key q.length (Nat.le_refl _), ih (by omega)]
    congr 1
    simp only [BitVec.getLsbD_ofNat, hw, decide_true, Bool.true_and, Bits.val]
    rw [Nat.mul_comm, Nat.testBit_two_pow_mul_add _ hlt]
    cases b <;> simp

end Sys2Proof
end

