-- ==== Sys2Proof/Laws/Ops.lean ====
section
/-! SUPPORT. One lemma per shared operation that says everything it can do: the phase check, the codeword operand, the lookup,
the emit steps, and what an edge does. -/

namespace Sys2Proof.Machine

variable {c : Config}

/-! The phase check (60_exceptions.md R158, R162, R154). -/

theorem Hse.legalIn_error (p : Phase) (cmd : Cmd c) (f : Hse c → Hse c) (h : Hse c) (hs : h.state = .error) :
    h.legalIn p cmd f = h := by
  simp [Hse.legalIn, hs]

theorem Hse.legalIn_same (p : Phase) (cmd : Cmd c) (f : Hse c → Hse c) (h : Hse c) (hs : h.state = p)
    (hp : p ≠ .error) : h.legalIn p cmd f = f h := by
  simp [Hse.legalIn, hs, hp]

theorem Hse.legalIn_other (p : Phase) (cmd : Cmd c) (f : Hse c → Hse c) (h : Hse c) (he : h.state ≠ .error)
    (hs : h.state ≠ p) : h.legalIn p cmd f = h.raise .badSequence cmd := by
  simp [Hse.legalIn, he, hs]

/-- Everything the phase check can do. -/
theorem Hse.legalIn_cases (p : Phase) (cmd : Cmd c) (f : Hse c → Hse c) (h : Hse c) :
    (h.state = .error ∧ h.legalIn p cmd f = h) ∨
    (h.state ≠ .error ∧ h.state = p ∧ h.legalIn p cmd f = f h) ∨
    (h.state ≠ .error ∧ h.state ≠ p ∧ h.legalIn p cmd f = h.raise .badSequence cmd) := by
  by_cases he : h.state = .error
  · exact .inl ⟨he, legalIn_error p cmd f h he⟩
  · by_cases hs : h.state = p
    · exact .inr (.inl ⟨he, hs, legalIn_same p cmd f h hs (hs ▸ he)⟩)
    · exact .inr (.inr ⟨he, hs, legalIn_other p cmd f h he hs⟩)

/-! The codeword operand (30_encoding.md R73, 40_table_commands.md R91). -/

@[simp] theorem lowBits_toNat {w : Nat} (n : Nat) (code : BitVec w) : (lowBits n code).toNat = code.toNat % 2 ^ n := by
  simp only [lowBits, BitVec.toNat_ofNat]
  exact Nat.mod_eq_of_lt (Nat.lt_of_le_of_lt (Nat.mod_le _ _) code.isLt)

theorem lowBits_lt {w : Nat} (n : Nat) (code : BitVec w) : (lowBits n code).toNat < 2 ^ n := by
  rw [lowBits_toNat]
  exact Nat.mod_lt _ (by positivity)

theorem lengthOk_iff (len : BitVec c.lenW) : lengthOk c len = true ↔ 1 ≤ len.toNat ∧ len.toNat ≤ c.lMax := by
  simp [lengthOk]

/-- The codeword of the entry a `LOAD` writes is the one its operand denotes (30_encoding.md R73). -/
theorem seqBits_lowBits {w : Nat} (n m : Nat) (hm : m ≤ n) (code : BitVec w) :
    seqBits m (lowBits n code) = seqBits m code := by
  induction m with
  | zero => rfl
  | succ m ih =>
    rw [seqBits_succ, seqBits_succ, ih (by omega)]
    congr 1
    rw [BitVec.getLsbD, BitVec.getLsbD, lowBits_toNat, Nat.testBit_mod_two_pow]
    simp [show m < n by omega]

/-! The lookup (20_memory.md R56). -/

theorem Entry.codeword_none (e : Entry c) : e.codeword = none ↔ e.len = 0 := by
  simp [Entry.codeword]

theorem Entry.codeword_some (e : Entry c) (hn : e.len ≠ 0) : e.codeword = some (seqBits e.len.toNat e.code) := by
  rw [Entry.codeword, if_neg hn]

@[simp] theorem Entry.codeword_empty : (Entry.empty c).codeword = none := by
  simp [Entry.codeword, Entry.empty]

/-- A codeword that is found has at least one bit (20_memory.md R56). -/
theorem Entry.codeword_length (e : Entry c) (q : Bits) (hq : e.codeword = some q) :
    q.length = e.len.toNat ∧ 1 ≤ q.length := by
  have hn : e.len ≠ 0 := fun h0 => by simp [(codeword_none e).mpr h0] at hq
  rw [codeword_some e hn, Option.some.injEq] at hq
  have : e.len.toNat ≠ 0 := fun h0 => hn (BitVec.eq_of_toNat_eq (by simpa using h0))
  subst hq
  simp only [length_seqBits, true_and]
  omega

/-! The emit steps (41_stream_commands.md R110). -/

theorem Hse.shn_pred (h : Hse c) (hn : h.shn ≠ 0) : (h.shn - 1).toNat = h.shn.toNat - 1 := by
  have h0 : h.shn.toNat ≠ 0 := fun h0 => hn (BitVec.eq_of_toNat_eq (by simpa using h0))
  rw [BitVec.toNat_sub_of_le (by simp [BitVec.le_def]; omega)]
  simp

/-- One emit step takes the first pending bit. -/
theorem Hse.pending_emit (h : Hse c) (hn : h.shn ≠ 0) : h.pending = h.nextBit :: h.emit.pending := by
  have h0 : h.shn.toNat ≠ 0 := fun h0 => hn (BitVec.eq_of_toNat_eq (by simpa using h0))
  simp only [Hse.pending, Hse.nextBit, Hse.emit_shn, Hse.emit_sh, Hse.shn_pred h hn]
  obtain ⟨n, hn'⟩ : ∃ n, h.shn.toNat = n + 1 := ⟨_, (Nat.succ_pred_eq_of_ne_zero h0).symm⟩
  simp [hn']

@[simp] theorem Hse.length_pending (h : Hse c) : h.pending.length = h.shn.toNat := by
  simp [Hse.pending]

/-- `n` emit steps transfer the first `n` pending bits and change nothing else. -/
theorem Hse.emitTimes_eq (n : Nat) (h : Hse c) (hn : n ≤ h.shn.toNat) :
    Hse.emitTimes n h = { h with out := h.out ++ h.pending.take n, shn := h.shn - BitVec.ofNat c.lenW n } := by
  induction n generalizing h with
  | zero => simp [Hse.emitTimes]
  | succ n ih =>
    have hne : h.shn ≠ 0 := fun h0 => by simp [h0] at hn
    have hle : n ≤ h.emit.shn.toNat := by rw [Hse.emit_shn, Hse.shn_pred h hne]; omega
    rw [Hse.emitTimes, ih _ hle, Hse.pending_emit h hne]
    simp only [Hse.emit, Hse.mk.injEq, List.take_succ_cons, List.append_assoc, List.cons_append, List.nil_append, true_and]
    have : BitVec.ofNat c.lenW (n + 1) = 1 + BitVec.ofNat c.lenW n := by
      rw [Nat.add_comm, BitVec.ofNat_add]; rfl
    rw [this, BitVec.sub_sub, and_true]

/-- All pending bits leave, in order, and nothing else changes. -/
theorem Hse.drain_eq (h : Hse c) : h.drain = { h with out := h.out ++ h.pending, shn := 0 } := by
  rw [Hse.drain, Hse.emitTimes_eq _ h (Nat.le_refl _)]
  have ht : h.pending.take h.shn.toNat = h.pending := List.take_of_length_le (by simp)
  have hz : h.shn - BitVec.ofNat c.lenW h.shn.toNat = 0 := by simp
  rw [ht, hz]

/-! What an edge does (70_reset_and_hazards.md R181, R187, R188, R190). -/

theorem Hse.event_reset_iff (p : PortsIn c) (h : Hse c) : h.event p = .reset ↔ p.rst = true := by
  unfold Hse.event
  cases p.rst <;> simp
  repeat' split
  all_goals simp

theorem Hse.event_transfer_iff (p : PortsIn c) (h : Hse c) :
    h.event p = .transfer ↔ p.rst = false ∧ h.shn ≠ 0 ∧ p.outReady = true := by
  unfold Hse.event Hse.outValid Hse.cmdReady
  cases hr : p.rst <;> cases ho : p.outReady <;> by_cases hs : h.shn = 0#c.lenW <;> cases hc : p.cmd <;> simp [hs]

theorem Hse.event_accept_iff (p : PortsIn c) (h : Hse c) (w : BitVec c.cmdW) :
    h.event p = .accept w ↔ p.rst = false ∧ h.shn = 0 ∧ p.cmd = some w := by
  unfold Hse.event Hse.outValid Hse.cmdReady
  cases hr : p.rst <;> cases ho : p.outReady <;> by_cases hs : h.shn = 0#c.lenW <;> cases hc : p.cmd <;> simp [hs]

/-- The command word the coming edge accepts is the host's next one, and no bit is pending. -/
theorem State.event_accept_iff (s : State) (w : CmdWord) :
    s.event = .accept w ↔
      s.now.rst = false ∧ s.hse.shn = 0 ∧ s.now.offer = true ∧ s.cmds.head? = some w := by
  unfold State.event
  rw [Hse.event_accept_iff]
  cases ho : s.now.offer <;> simp [State.portsIn, ho]

theorem State.event_reset_iff (s : State) : s.event = .reset ↔ s.now.rst = true := by
  unfold State.event
  rw [Hse.event_reset_iff]; rfl

theorem State.event_transfer_iff (s : State) :
    s.event = .transfer ↔ s.now.rst = false ∧ s.hse.shn ≠ 0 ∧ s.now.outReady = true := by
  unfold State.event
  rw [Hse.event_transfer_iff]; rfl

end Sys2Proof.Machine
end

