-- ==== Sys2Proof/Laws/Step.lean ====
section
/-! SUPPORT. What `exec` and `step` can do, said once: the effect of a command on the block, that nothing stops the machine, and
the cases of a step. Everything about whole runs is derived from these. -/

namespace Sys2Proof.Machine

/-- The effect of a command on the block. -/
def effect : Instr → Hse Config.hse → Hse Config.hse
  | .nop _ _ _ => id
  | .clrt sym len code => Hse.clearTable (Instr.clrt sym len code).toCmd
  | .load sym len code => Hse.loadEntry (Instr.load sym len code).toCmd
  | .start sym len code => Hse.start (Instr.start sym len code).toCmd
  | .push sym len code => Hse.push (Instr.push sym len code).toCmd
  | .endStream sym len code => Hse.endStream (Instr.endStream sym len code).toCmd
  | .abort _ _ _ => Hse.clearError

/-- The effect of a word, whatever its opcode. -/
def effectOfWord (w : CmdWord) : Hse Config.hse → Hse Config.hse :=
  match decode w with
  | .command i => effect i
  | .reservedOpcode cmd => Hse.reservedOp cmd

/-! The fields of a command, and its effect as the shared operation it is. -/

@[simp] theorem toCmd_nop (sym : Sym) (len : Len) (code : Code) :
    (Instr.nop sym len code).toCmd = ⟨0x0, sym, len, code⟩ := rfl
@[simp] theorem toCmd_clrt (sym : Sym) (len : Len) (code : Code) :
    (Instr.clrt sym len code).toCmd = ⟨0x1, sym, len, code⟩ := rfl
@[simp] theorem toCmd_load (sym : Sym) (len : Len) (code : Code) :
    (Instr.load sym len code).toCmd = ⟨0x2, sym, len, code⟩ := rfl
@[simp] theorem toCmd_start (sym : Sym) (len : Len) (code : Code) :
    (Instr.start sym len code).toCmd = ⟨0x3, sym, len, code⟩ := rfl
@[simp] theorem toCmd_push (sym : Sym) (len : Len) (code : Code) :
    (Instr.push sym len code).toCmd = ⟨0x4, sym, len, code⟩ := rfl
@[simp] theorem toCmd_endStream (sym : Sym) (len : Len) (code : Code) :
    (Instr.endStream sym len code).toCmd = ⟨0x5, sym, len, code⟩ := rfl
@[simp] theorem toCmd_abort (sym : Sym) (len : Len) (code : Code) :
    (Instr.abort sym len code).toCmd = ⟨0x6, sym, len, code⟩ := rfl

theorem effect_nop (sym : Sym) (len : Len) (code : Code) (h : Hse Config.hse) :
    effect (.nop sym len code) h = h := rfl
theorem effect_clrt (sym : Sym) (len : Len) (code : Code) (h : Hse Config.hse) :
    effect (.clrt sym len code) h = h.legalIn .idle ⟨0x1, sym, len, code⟩ Hse.emptyTable := rfl
theorem effect_load (sym : Sym) (len : Len) (code : Code) (h : Hse Config.hse) :
    effect (.load sym len code) h = h.legalIn .idle ⟨0x2, sym, len, code⟩ fun k =>
      if lengthOk Config.hse len then k.setEntry sym ⟨len, lowBits len.toNat code⟩ else k.raise .badLength ⟨0x2, sym, len, code⟩ := rfl
theorem effect_start (sym : Sym) (len : Len) (code : Code) (h : Hse Config.hse) :
    effect (.start sym len code) h = h.legalIn .idle ⟨0x3, sym, len, code⟩ Hse.openStream := rfl
theorem effect_push (sym : Sym) (len : Len) (code : Code) (h : Hse Config.hse) :
    effect (.push sym len code) h = h.legalIn .active ⟨0x4, sym, len, code⟩ (Hse.pushActive ⟨0x4, sym, len, code⟩) := rfl
theorem effect_endStream (sym : Sym) (len : Len) (code : Code) (h : Hse Config.hse) :
    effect (.endStream sym len code) h = h.legalIn .active ⟨0x5, sym, len, code⟩ Hse.closeStream := rfl
theorem effect_abort (sym : Sym) (len : Len) (code : Code) (h : Hse Config.hse) :
    effect (.abort sym len code) h = h.clearError := rfl

/-- A command acts on the block alone, and always completes (30_encoding.md R79). -/
theorem exec_eq (i : Instr) (s : State) : exec i s = .next (s.onBlock (effect i)) := by
  cases i <;> rfl

/-- The four things an edge does, each with the condition it does it on (70_reset_and_hazards.md R181, R187, R188, R190). -/
theorem step_cases (s : State) :
    (s.now.rst = true ∧ step s = .next s.takeReset) ∨
    (s.now.rst = false ∧ s.hse.shn ≠ 0 ∧ s.now.outReady = true ∧ step s = .next s.takeTransfer) ∨
    (∃ w, s.now.rst = false ∧ s.hse.shn = 0 ∧ s.now.offer = true ∧ s.cmds.head? = some w ∧
      s.event = .accept w ∧ step s = .next (s.pastCommand.onBlock (effectOfWord w))) ∨
    (s.event = .quiet ∧ step s = .next s.pastEdge) := by
  cases he : s.event with
  | reset => exact .inl ⟨(State.event_reset_iff s).mp he, by simp [step, he]⟩
  | transfer =>
    obtain ⟨h1, h2, h3⟩ := (State.event_transfer_iff s).mp he
    exact .inr (.inl ⟨h1, h2, h3, by simp [step, he]⟩)
  | accept w =>
    obtain ⟨h1, h2, h3, h4⟩ := (State.event_accept_iff s w).mp he
    refine .inr (.inr (.inl ⟨w, h1, h2, h3, h4, rfl, ?_⟩))
    simp only [step, he, effectOfWord]
    cases hd : decode w with
    | command i => exact exec_eq i _
    | reservedOpcode cmd => rfl
  | quiet => exact .inr (.inr (.inr ⟨rfl, by simp [step, he]⟩))

/-- Nothing stops the machine: every state has a next one (30_encoding.md R79). -/
theorem step_answers (s : State) : ∃ t, step s = .next t := by
  rcases step_cases s with ⟨-, h⟩ | ⟨-, -, -, h⟩ | ⟨w, -, -, -, -, -, h⟩ | ⟨-, h⟩ <;> exact ⟨_, h⟩

/-- An accepted word runs on the block, with the host's queue and the schedule moved on. -/
theorem step_accept (s : State) (w : CmdWord) (he : s.event = .accept w) :
    step s = .next (s.pastCommand.onBlock (effectOfWord w)) := by
  rcases step_cases s with ⟨h, -⟩ | ⟨-, h, -⟩ | ⟨v, -, -, -, -, hv, h⟩ | ⟨h, -⟩
  · rw [(State.event_reset_iff s).mpr h] at he; cases he
  · exact absurd ((State.event_accept_iff s w).mp he).2.1 h
  · rw [he] at hv; cases hv; exact h
  · rw [he] at h; cases h

/-- A run of one more step. -/
theorem run_succ (k : Nat) (s t : State) (h : step s = .next t) :
    Host.Core.run Sys2Proof.core (k + 1) s = Host.Core.run Sys2Proof.core k t := by
  have hs : Sys2Proof.core.step s = .next t := h
  simp only [Host.Core.run, hs]

@[simp] theorem run_zero (s : State) : Host.Core.run Sys2Proof.core 0 s = .next s := rfl

/-- Every run answers a state. -/
theorem run_answers (k : Nat) (s : State) : ∃ t, Host.Core.run Sys2Proof.core k s = .next t := by
  induction k generalizing s with
  | zero => exact ⟨s, rfl⟩
  | succ k ih =>
    obtain ⟨t, ht⟩ := step_answers s
    rw [run_succ k s t ht]
    exact ih t

/-- What every step keeps holds along every run. -/
theorem run_keeps (P : State → Prop) (hstep : ∀ s t, P s → step s = .next t → P t) (k : Nat) (s t : State)
    (hs : P s) (hrun : Host.Core.run Sys2Proof.core k s = .next t) : P t := by
  induction k generalizing s with
  | zero => cases hrun; exact hs
  | succ k ih =>
    obtain ⟨u, hu⟩ := step_answers s
    rw [run_succ k s u hu] at hrun
    exact ih u (hstep s u hs hu) hrun

end Sys2Proof.Machine
end

