-- ==== Sys2Proof/Laws/Accept.lean ====
section
/-! SUPPORT. What the decoder can answer, that `exec` and the step agree with the block's own `Hse.accept`, and everything an
accepted word can do to the block, at any configuration. -/

namespace Sys2Proof

/-- What the decoder answers: a command with the word's own fields and an opcode below 7, or the rejection of an opcode from 7
on (30_encoding.md R74, R77, R78). -/
theorem decode_cases (w : CmdWord) :
    (∃ i, decode w = .command i ∧ i.toCmd = Cmd.ofWord w ∧ (Cmd.ofWord w : Cmd Config.hse).op.toNat < 7) ∨
    (decode w = .reservedOpcode (Cmd.ofWord w) ∧ 7 ≤ (Cmd.ofWord w : Cmd Config.hse).op.toNat) := by
  unfold decode decodeFields
  generalize (Cmd.ofWord w : Cmd Config.hse) = cmd
  obtain ⟨op, sym, len, code⟩ := cmd
  simp only
  repeat' split
  all_goals first
    | (left; refine ⟨_, rfl, ?_, ?_⟩ <;> simp_all [Instr.toCmd, Instr.opcode, Instr.sym, Instr.len, Instr.code])
    | (right; refine ⟨rfl, ?_⟩; bv_omega)

/-- The encoding function on numbers, as 30_encoding.md R76 writes it. -/
theorem toWord_eq_ofNat {c : Config} (cmd : Cmd c) :
    cmd.toWord = BitVec.ofNat c.cmdW (cmd.op.toNat ||| cmd.sym.toNat <<< 4 ||| cmd.len.toNat <<< (4 + c.symW) |||
      cmd.code.toNat <<< (4 + c.symW + c.lenW)) := by
  apply BitVec.eq_of_getLsbD_eq
  intro i hi
  have h1 : ∀ n, i - n < c.cmdW := fun n => by omega
  simp only [Cmd.toWord, BitVec.getLsbD_or, BitVec.getLsbD_shiftLeft, BitVec.getLsbD_setWidth, BitVec.getLsbD_ofNat, hi, h1,
    decide_true, Bool.true_and, Nat.testBit_or, Nat.testBit_shiftLeft]
  simp only [BitVec.getLsbD, ← decide_not, Nat.not_lt, ge_iff_le]

namespace Machine

/-- A command's effect is the accepted effect of any word with its fields. -/
theorem effect_eq_accept (i : Instr) (w : CmdWord) (hw : i.toCmd = Cmd.ofWord w) : effect i = Hse.accept w := by
  funext h
  cases i <;> simp [Hse.accept, ← hw, effect, Instr.toCmd, Instr.opcode]

/-- The effect of a word in the step is `Hse.accept`. -/
theorem effectOfWord_eq (w : CmdWord) : effectOfWord w = Hse.accept w := by
  rcases decode_cases w with ⟨i, hd, hw, -⟩ | ⟨hd, h7⟩
  · simp only [effectOfWord, hd]
    exact effect_eq_accept i w hw
  · funext h
    have hne : ∀ k : Opcode, k.toNat < 7 → (Cmd.ofWord w : Cmd Config.hse).op ≠ k := fun k hk he => by
      rw [he] at h7; omega
    simp only [effectOfWord, hd, Hse.accept]
    rw [if_neg (hne _ (by decide)), if_neg (hne _ (by decide)), if_neg (hne _ (by decide)), if_neg (hne _ (by decide)),
      if_neg (hne _ (by decide)), if_neg (hne _ (by decide)), if_neg (hne _ (by decide))]

variable {c : Config}

/-- Everything an accepted word can do, each case with its condition: nothing, a return to IDLE, an error entry with its cause,
or the one effect of a legal command (10_state.md R22, 60_exceptions.md R156, R158). -/
theorem Hse.accept_cases (w : BitVec c.cmdW) (h : Hse c) :
    ((Cmd.ofWord w).op = 0x0 ∧ h.accept w = h) ∨
    (h.state = .error ∧ (Cmd.ofWord w).op ≠ 0x0 ∧ (Cmd.ofWord w).op ≠ 0x6 ∧ h.accept w = h) ∨
    ((Cmd.ofWord w).op = 0x6 ∧ h.accept w = h.clearError) ∨
    (h.state ≠ .error ∧ 7 ≤ (Cmd.ofWord w).op.toNat ∧ h.accept w = h.raise .illegalOp (Cmd.ofWord w)) ∨
    (h.state = .active ∧ ((Cmd.ofWord w).op = 0x1 ∨ (Cmd.ofWord w).op = 0x2 ∨ (Cmd.ofWord w).op = 0x3) ∧
      h.accept w = h.raise .badSequence (Cmd.ofWord w)) ∨
    (h.state = .idle ∧ ((Cmd.ofWord w).op = 0x4 ∨ (Cmd.ofWord w).op = 0x5) ∧
      h.accept w = h.raise .badSequence (Cmd.ofWord w)) ∨
    (h.state = .idle ∧ (Cmd.ofWord w).op = 0x1 ∧ h.accept w = h.emptyTable) ∨
    (h.state = .idle ∧ (Cmd.ofWord w).op = 0x2 ∧ lengthOk c (Cmd.ofWord w).len = true ∧
      h.accept w = h.setEntry (Cmd.ofWord w).sym (Cmd.entry (Cmd.ofWord w))) ∨
    (h.state = .idle ∧ (Cmd.ofWord w).op = 0x2 ∧ lengthOk c (Cmd.ofWord w).len = false ∧
      h.accept w = h.raise .badLength (Cmd.ofWord w)) ∨
    (h.state = .idle ∧ (Cmd.ofWord w).op = 0x3 ∧ h.accept w = h.openStream) ∨
    (h.state = .active ∧ (Cmd.ofWord w).op = 0x4 ∧ (h.entry (Cmd.ofWord w).sym).len = 0 ∧
      h.accept w = h.raise .missingCode (Cmd.ofWord w)) ∨
    (h.state = .active ∧ (Cmd.ofWord w).op = 0x4 ∧ (h.entry (Cmd.ofWord w).sym).len ≠ 0 ∧
      h.accept w = h.queue (h.entry (Cmd.ofWord w).sym)) ∨
    (h.state = .active ∧ (Cmd.ofWord w).op = 0x5 ∧ h.accept w = h.closeStream) := by
  unfold Hse.accept Hse.clearTable Hse.loadEntry Hse.start Hse.push Hse.endStream Hse.reservedOp Hse.pushActive
  generalize (Cmd.ofWord w) = cmd
  obtain ⟨op, sym, len, code⟩ := cmd
  simp only
  have hop : op = 0x0 ∨ op = 0x1 ∨ op = 0x2 ∨ op = 0x3 ∨ op = 0x4 ∨ op = 0x5 ∨ op = 0x6 ∨ 7 ≤ op.toNat := by bv_omega
  rcases hop with rfl | rfl | rfl | rfl | rfl | rfl | rfl | h7
  · simp
  all_goals cases hs : h.state
  case inr.inr.inl.idle => cases lengthOk c len <;> simp [Hse.legalIn, hs]
  case inr.inr.inr.inr.inl.active => by_cases hl : (h.entry sym).len = 0#c.lenW <;> simp [Hse.legalIn, hs, hl]
  case inr.inr.inr.inr.inr.inr.inr.idle | inr.inr.inr.inr.inr.inr.inr.active | inr.inr.inr.inr.inr.inr.inr.error =>
    have hne : ∀ k : Opcode, k.toNat < 7 → op ≠ k := fun k hk he => by rw [he] at h7; omega
    simp [h7, hne 0#4 (by decide), hne 1#4 (by decide), hne 2#4 (by decide), hne 3#4 (by decide), hne 4#4 (by decide),
      hne 5#4 (by decide), hne 6#4 (by decide)]
  all_goals simp [Hse.legalIn, hs]

end Machine

end Sys2Proof
end

