-- ==== Sys2Proof/Laws/Runs.lean ====
section
/-! SUPPORT. The lemmas that proofs about runs and invariants go through: everything a step can do, with the accepted word taken
from the front of the host's queue; schedules without a reset; entries of a table that meets its invariant; and draining the
pending bits. -/

namespace Sys2Proof.Machine

variable {c : Config}

theorem Hse.shn_toNat_zero (h : Hse c) : h.shn.toNat = 0 ↔ h.shn = 0 :=
  ⟨fun hh => BitVec.eq_of_toNat_eq (by simpa using hh), fun hh => by simp [hh]⟩

/-- An entry of a table that meets R34 item 3 meets it, listed or not. -/
theorem Hse.entry_ok (h : Hse c) (hi : h.tableOk) (sym : BitVec c.symW) : Entry.ok (h.entry sym) := by
  rcases Table.read_mem h.table sym.toNat with hm | hm
  · exact hi.2 _ hm
  · rw [Hse.entry, hm]; simp [Entry.ok, Entry.empty]

/-- Draining after one emit step is draining. -/
theorem Hse.drain_emit (h : Hse c) (hn : h.shn ≠ 0) : h.emit.drain = h.drain := by
  rw [Hse.drain_eq, Hse.drain_eq, Hse.pending_emit h hn]
  simp [Hse.emit]

/-- A block with nothing pending has nothing to drain. -/
theorem Hse.drain_of_shn_zero (h : Hse c) (hn : h.shn = 0) : h.drain = h := by
  obtain ⟨_, _, _, _, _, _, _, _, shn, _, _⟩ := h
  simp only at hn
  subst hn
  rw [Hse.drain_eq]
  simp [Hse.pending]

@[simp] theorem Hse.drain_shn (h : Hse c) : h.drain.shn = 0 := by rw [Hse.drain_eq]

/-- Command words run alike from a block and from the drained block. -/
theorem Hse.runWords_drain (ws : List (BitVec c.cmdW)) (h : Hse c) : Hse.runWords ws h.drain = Hse.runWords ws h := by
  have hd : h.drain.drain = h.drain := Hse.drain_of_shn_zero _ (Hse.drain_shn h)
  cases ws <;> simp [Hse.runWords, hd]

/-- Everything a step can do, by the edge's event: the reset event, one transferred bit, the word at the front of the host's
queue accepted with no bit pending, or nothing (70_reset_and_hazards.md R186). -/
theorem step_next_cases (s t : State) (h : step s = .next t) :
    (s.event = .reset ∧ t = s.takeReset) ∨
    (s.event = .transfer ∧ s.hse.shn ≠ 0 ∧ t = s.takeTransfer) ∨
    (∃ w rest, s.event = .accept w ∧ s.hse.shn = 0 ∧ s.cmds = w :: rest ∧ t.cmds = rest ∧ t.edges = s.edges.tail ∧
      t.later = s.later ∧ t.hse = s.hse.accept w) ∨
    (s.event = .quiet ∧ t = s.pastEdge) := by
  cases he : s.event with
  | reset => simp only [step, he] at h; cases h; exact .inl ⟨rfl, rfl⟩
  | transfer =>
    simp only [step, he] at h
    cases h
    exact .inr (.inl ⟨rfl, ((State.event_transfer_iff s).mp he).2.1, rfl⟩)
  | accept w =>
    rw [step_accept s w he, effectOfWord_eq] at h
    cases h
    obtain ⟨-, hn, -, hc⟩ := (State.event_accept_iff s w).mp he
    refine .inr (.inr (.inl ⟨w, s.cmds.tail, rfl, hn, ?_, rfl, rfl, rfl, rfl⟩))
    cases hs : s.cmds with
    | nil => simp [hs] at hc
    | cons a r => simp [hs] at hc; simp [hc]
  | quiet => simp only [step, he] at h; cases h; exact .inr (.inr (.inr ⟨rfl, rfl⟩))

theorem State.resetFree_now (s : State) (h : s.resetFree) : s.now.rst = false := by
  cases he : s.edges with
  | nil => simp [State.now, he, h.2]
  | cons e r => simpa [State.now, he] using h.1 e (by simp [he])

/-- A schedule without a reset stays one. -/
theorem State.resetFree_step (s t : State) (h : s.resetFree) (ht : step s = .next t) : t.resetFree := by
  have htail : ∀ e ∈ s.edges.tail, e.rst = false := fun e he => h.1 e (List.mem_of_mem_tail he)
  rcases step_next_cases s t ht with ⟨-, rfl⟩ | ⟨-, -, rfl⟩ | ⟨w, rest, -, -, -, -, he, hl, -⟩ | ⟨-, rfl⟩
  · exact ⟨htail, h.2⟩
  · exact ⟨htail, h.2⟩
  · exact ⟨he ▸ htail, hl ▸ h.2⟩
  · exact ⟨htail, h.2⟩

/-- The host's queue never grows. -/
theorem cmds_length_step (s t : State) (ht : step s = .next t) : t.cmds.length ≤ s.cmds.length := by
  rcases step_next_cases s t ht with ⟨-, rfl⟩ | ⟨-, -, rfl⟩ | ⟨w, rest, -, -, hc, hr, -, -, -⟩ | ⟨-, rfl⟩
  · exact Nat.le_refl _
  · exact Nat.le_refl _
  · rw [hr, hc]; simp
  · exact Nat.le_refl _

end Sys2Proof.Machine
end

