-- ==== Sys2Proof/Laws/EncodeCall.lean ====
section
/-! SUPPORT. The fields after the host issues commands, what the host holds as a result along a run, and everything an `encode`
call can answer. -/

namespace Sys2Proof.Machine

@[simp] theorem State.issue_hse (is : List Instr) (s : State) : (s.issue is).hse = s.hse := rfl
@[simp] theorem State.issue_cmds (is : List Instr) (s : State) : (s.issue is).cmds = s.cmds ++ is.map encode := rfl
@[simp] theorem State.issue_edges (is : List Instr) (s : State) : (s.issue is).edges = s.edges := rfl
@[simp] theorem State.issue_later (is : List Instr) (s : State) : (s.issue is).later = s.later := rfl

@[simp] theorem resultAfter_completed (r : Bits) (p : Phase) (held : Option Bits) :
    resultAfter (some (.completed r)) p held = some r := rfl
@[simp] theorem resultAfter_failed (e : Cause) (p : Phase) (held : Option Bits) :
    resultAfter (some (.failed e)) p held = none := rfl
@[simp] theorem resultAfter_abandoned (p : Phase) (held : Option Bits) : resultAfter (some .abandoned) p held = none := rfl
@[simp] theorem resultAfter_none_idle (held : Option Bits) : resultAfter none .idle held = held := rfl
@[simp] theorem resultAfter_none_active (held : Option Bits) : resultAfter none .active held = none := rfl
@[simp] theorem resultAfter_none_error (held : Option Bits) : resultAfter none .error held = none := rfl

@[simp] theorem latestResult_zero (held : Option Bits) (s : State) : latestResult 0 held s = held := rfl

/-- The result held after a run of one more step. -/
theorem latestResult_succ (k : Nat) (held : Option Bits) (s t : State) (h : step s = .next t) :
    latestResult (k + 1) held s =
      latestResult k (resultAfter (Hse.streamEnd s.event t.hse s.hse) t.hse.state held) t := by
  simp only [latestResult, h]

/-- What every step keeps of a state and the result held in it holds along every run. -/
theorem latestResult_keeps (P : State → Option Bits → Prop)
    (hstep : ∀ s t held, P s held → step s = .next t →
      P t (resultAfter (Hse.streamEnd s.event t.hse s.hse) t.hse.state held))
    (k : Nat) (s t : State) (held : Option Bits) (hs : P s held) (hrun : Host.Core.run Sys2Proof.core k s = .next t) :
    P t (latestResult k held s) := by
  induction k generalizing s held with
  | zero => cases hrun; exact hs
  | succ k ih =>
    obtain ⟨u, hu⟩ := step_answers s
    rw [run_succ k s u hu] at hrun
    rw [latestResult_succ k held s u hu]
    exact ih u _ (hstep s u held hs hu) hrun

/-- Everything an edge can do to the result held: it completes a stream and gives its result, it comes from outside ACTIVE to
IDLE and keeps the one held, or it leaves none. -/
theorem resultAfter_cases (s t : State) (held : Option Bits) (h : step s = .next t) :
    (s.hse.state = .active ∧ s.hse.shn = 0 ∧ t.hse = s.hse.closeStream ∧
      Hse.streamEnd s.event t.hse s.hse = some (.completed s.hse.sinceStart) ∧
      resultAfter (Hse.streamEnd s.event t.hse s.hse) t.hse.state held = some s.hse.sinceStart) ∨
    (s.hse.state ≠ .active ∧ t.hse.state = .idle ∧ Hse.streamEnd s.event t.hse s.hse = none ∧
      resultAfter (Hse.streamEnd s.event t.hse s.hse) t.hse.state held = held) ∨
    ((∀ r, Hse.streamEnd s.event t.hse s.hse ≠ some (.completed r)) ∧
      (t.hse.state = .idle → s.hse.state = .active) ∧
      resultAfter (Hse.streamEnd s.event t.hse s.hse) t.hse.state held = none) := by
  by_cases ha : s.hse.state = .active
  · rcases step_next_cases s t h with ⟨he, rfl⟩ | ⟨he, -, rfl⟩ | ⟨w, rest, he, hn, -, -, -, -, ht⟩ | ⟨he, rfl⟩
    · exact .inr (.inr (by simp [Hse.streamEnd, he, ha]))
    · exact .inr (.inr (by simp [Hse.streamEnd, he, ha]))
    · by_cases h5 : (Cmd.ofWord w : Cmd Config.hse).op = 0x5
      · have hc : t.hse = s.hse.closeStream := by
          rcases Hse.accept_cases w s.hse with h | h | h | h | h | h | h | h | h | h | h | h | h <;> simp_all
        exact .inl ⟨ha, hn, hc, by simp [Hse.streamEnd, he, ha, hc, h5, Hse.closeStream]⟩
      · exact .inr (.inr (by cases hs : t.hse.state <;> simp [Hse.streamEnd, he, ha, hs, show ¬ (Cmd.ofWord w : Cmd Config.hse).op = 5#4 from h5]))
    · exact .inr (.inr (by simp [Hse.streamEnd, he, ha]))
  · have hnone : Hse.streamEnd s.event t.hse s.hse = none := by simp [Hse.streamEnd, ha]
    rw [hnone]
    cases hs : t.hse.state <;> simp [ha]

/-- The host has an answer only when its commands have been accepted, and it is the reading of the status ports. -/
theorem State.result_eq_some (table : CodeTable) (held : Option Bits) (s : State) (r : CallResult) :
    s.result table held = some r ↔ s.cmds = [] ∧ readResult table held s.hse.statusPorts = some r := by
  unfold State.result
  split <;> simp_all [Hse.ports]

/-- A reading answers an output only as the result held, of a block in IDLE (60_exceptions.md R164). -/
theorem readResult_encoded {c : Config} (table u : CodeTable) (held : Option Bits) (h : Hse c) (output : Bits) :
    readResult table held h.statusPorts = some (.encoded u output) ↔
      h.state = .idle ∧ h.err = .none ∧ held = some output ∧ u = table := by
  obtain ⟨state, err, -⟩ := h
  cases state <;> cases err <;> cases held <;> simp [readResult, Hse.statusPorts, Phase.code, Cause.code, eq_comm, and_comm]

/-- Everything a call can do: fail before any command, or run its commands and read the outcome. -/
theorem encodeOn_cases (ch : BuildChoices) (input : List Sym) (k : Nat) (s : State) :
    ((∃ e, encodeCall ch input = .error e) ∧ encodeOn ch input k s = some .invalidInput) ∨
    (∃ table is t, encodeCall ch input = .ok (table, is) ∧ Host.Core.run Sys2Proof.core k (s.issue is) = .next t ∧
      encodeOn ch input k s = t.result table (latestResult k none (s.issue is))) := by
  cases hc : encodeCall ch input with
  | error e => exact .inl ⟨⟨e, rfl⟩, by simp only [encodeOn, hc]⟩
  | ok p =>
    obtain ⟨table, is⟩ := p
    obtain ⟨t, ht⟩ := run_answers k (s.issue is)
    exact .inr ⟨table, is, t, rfl, ht, by simp only [encodeOn, hc, ht]⟩

end Sys2Proof.Machine
end

