-- ==== Sys2Proof/Laws/PerInstr.lean ====
section
/-! SUPPORT. The statement made of every command as syntax: its word's low four bits are its opcode (30_encoding.md R74,
R76). -/

namespace Sys2Proof.Laws.OpcodeField

/-- The field `OP` of a command's word is its opcode. -/
def Statement (i : Instr) : Prop := (encode i).extractLsb' 0 4 = i.opcode

/-- The low four bits of any command word are its opcode, at every configuration. -/
theorem toWord_op {c : Config} (cmd : Cmd c) : cmd.toWord.extractLsb' 0 4 = cmd.op := by
  apply BitVec.eq_of_getLsbD_eq
  intro i hi
  have hw : i < c.cmdW := by simp only [Config.cmdW]; omega
  simp [Cmd.toWord, hi, hw, show i < 4 + c.symW by omega,
    show i < 4 + c.symW + c.lenW by omega]

theorem nop (sym : Sym) (len : Len) (code : Code) : Statement (.nop sym len code) := toWord_op _
theorem clrt (sym : Sym) (len : Len) (code : Code) : Statement (.clrt sym len code) := toWord_op _
theorem load (sym : Sym) (len : Len) (code : Code) : Statement (.load sym len code) := toWord_op _
theorem start (sym : Sym) (len : Len) (code : Code) : Statement (.start sym len code) := toWord_op _
theorem push (sym : Sym) (len : Len) (code : Code) : Statement (.push sym len code) := toWord_op _
theorem endStream (sym : Sym) (len : Len) (code : Code) : Statement (.endStream sym len code) := toWord_op _
theorem abort (sym : Sym) (len : Len) (code : Code) : Statement (.abort sym len code) := toWord_op _

end Sys2Proof.Laws.OpcodeField
end

