-- ==== Sys2Proof/Machine/AssemblerText.lean ====
section
/-! DEFINITION. The assembler's text (30_encoding.md R80 to R83): characters to tokens, tokens to lines, lines to command words.
What the spec leaves open of the text is in log entry 18. -/

namespace Sys2Proof.Machine

/-- The pieces of a line (30_encoding.md R80 to R83). -/
inductive Token where
  /-- A mnemonic, the directive of R80, or the name of a pseudo-instruction. -/
  | name (text : List Char)
  /-- A number; `hex` when it is written with `0x`. -/
  | number (hex : Bool) (value : Nat)
  /-- One character in single quotes. -/
  | character (ch : Char)
  /-- Characters in double quotes. -/
  | quoted (text : List Char)
  | comma
  | colon
  | openBrace
  | closeBrace
  | lineEnd
  deriving DecidableEq, Repr

/-- Where the reader of characters stands: between tokens, after a `;`, in a name or number, in double quotes, after an opening
single quote, before the closing one. -/
inductive LexMode where
  | between
  | comment
  | inName (text : List Char)
  | inQuotes (text : List Char)
  | openedCharacter
  | readCharacter (ch : Char)
  deriving DecidableEq, Repr

/-- The value of a digit in decimal or hexadecimal. -/
def digitValue (ch : Char) : Option Nat :=
  let n := ch.toNat
  if 0x30 ≤ n ∧ n ≤ 0x39 then some (n - 0x30)
  else if 0x41 ≤ n ∧ n ≤ 0x46 then some (n - 0x41 + 10)
  else if 0x61 ≤ n ∧ n ≤ 0x66 then some (n - 0x61 + 10)
  else none

/-- The number that digits spell in a base, after the value already read. -/
def numberValue (base : Nat) : Nat → List Char → Option Nat
  | value, [] => some value
  | value, ch :: rest =>
    match digitValue ch with
    | none => none
    | some d => if d < base then numberValue base (value * base + d) rest else none

/-- The token of a run of letters, digits and dots: a number when it begins with a digit (30_encoding.md R81), a name
otherwise. -/
def nameToken : List Char → Option Token
  | [] => none
  | '0' :: 'x' :: d :: digits => (numberValue 16 0 (d :: digits)).map (.number true)
  | ch :: rest =>
    if 0x30 ≤ ch.toNat ∧ ch.toNat ≤ 0x39 then (numberValue 10 0 (ch :: rest)).map (.number false)
    else some (.name (ch :: rest))

/-- The characters of names and numbers. -/
def isNameChar (ch : Char) : Bool := ch.isAlphanum || ch == '.'

/-- The printable characters of ASCII (30_encoding.md R81). -/
def isPrintable (ch : Char) : Bool := decide (0x20 ≤ ch.toNat) && decide (ch.toNat ≤ 0x7E)

/-- What a character outside a token does: the tokens it is, and where the reader then stands. -/
def beginToken (ch : Char) : Option (List Token × LexMode) :=
  if ch = ' ' ∨ ch = '\t' then some ([], .between)
  else if ch = '\n' then some ([.lineEnd], .between)
  else if ch = ';' then some ([], .comment)
  else if ch = ',' then some ([.comma], .between)
  else if ch = ':' then some ([.colon], .between)
  else if ch.toNat = 0x7B then some ([.openBrace], .between)
  else if ch.toNat = 0x7D then some ([.closeBrace], .between)
  else if ch.toNat = 0x22 then some ([], .inQuotes [])
  else if ch.toNat = 0x27 then some ([], .openedCharacter)
  else if isNameChar ch then some ([], .inName [ch])
  else none

/-- The tokens of a text, none where it is not one (30_encoding.md R80). DESIGN CHOICE (log entry 18): in double quotes the first
double quote ends the string, for there is no escape, so that a string holds any printable character but the double quote, and a
`;` there is a character and begins no comment; in single quotes every printable character can stand. -/
def tokens : LexMode → List Char → Option (List Token)
  | .between, [] | .comment, [] => some []
  | .inName text, [] => (nameToken text).map ([·])
  | .inQuotes _, [] | .openedCharacter, [] | .readCharacter _, [] => none
  | .between, ch :: rest =>
    match beginToken ch with
    | none => none
    | some (ts, mode) => (tokens mode rest).map (ts ++ ·)
  | .comment, ch :: rest => if ch = '\n' then (tokens .between rest).map (.lineEnd :: ·) else tokens .comment rest
  | .inName text, ch :: rest =>
    if isNameChar ch then tokens (.inName (text ++ [ch])) rest
    else
      match nameToken text, beginToken ch with
      | some t, some (ts, mode) => (tokens mode rest).map (t :: ts ++ ·)
      | _, _ => none
  | .inQuotes text, ch :: rest =>
    if ch.toNat = 0x22 then (tokens .between rest).map (.quoted text :: ·)
    else if isPrintable ch then tokens (.inQuotes (text ++ [ch])) rest
    else none
  | .openedCharacter, ch :: rest => if isPrintable ch then tokens (.readCharacter ch) rest else none
  | .readCharacter ch, close :: rest =>
    if close.toNat = 0x27 then (tokens .between rest).map (.character ch :: ·) else none

/-- `<sym>` (30_encoding.md R81). -/
def symbolOperand : Token → Option Nat
  | .number _ value => some value
  | .character ch => some (charSym ch)
  | .name _ | .quoted _ | .comma | .colon | .openBrace | .closeBrace | .lineEnd => none

/-- The bits that characters `0` and `1` spell (00_scope.md R12, 30_encoding.md R82). -/
def bitsOfText : List Char → Option Bits
  | [] => some []
  | '0' :: rest => (bitsOfText rest).map (false :: ·)
  | '1' :: rest => (bitsOfText rest).map (true :: ·)
  | _ :: _ => none

/-- The entries of `TABLE`, up to the closing brace (30_encoding.md R83). DESIGN CHOICE (log entry 18): a line break may stand
before an entry, that is after the opening brace or after a comma, and nowhere else in `TABLE`; there is at least one entry, and no
comma after the last. The fuel is the number of tokens. -/
def tableEntries : Nat → List Token → Option (List (Nat × Bits) × List Token)
  | 0, _ => none
  | n + 1, .lineEnd :: rest => tableEntries n rest
  | n + 1, s :: .colon :: .quoted text :: .comma :: rest =>
    match symbolOperand s, bitsOfText text, tableEntries n rest with
    | some sym, some bits, some (entries, others) => some ((sym, bits) :: entries, others)
    | _, _, _ => none
  | _ + 1, s :: .colon :: .quoted text :: .closeBrace :: rest =>
    match symbolOperand s, bitsOfText text with
    | some sym, some bits => some ([(sym, bits)], rest)
    | _, _ => none
  | _ + 1, _ => none

/-- One command or pseudo-instruction and the tokens after it (30_encoding.md R80, R83). -/
def statement : List Token → Option (List AsmLine × List Token)
  | .name ['N', 'O', 'P'] :: rest => some ([.nop], rest)
  | .name ['C', 'L', 'R', 'T'] :: rest => some ([.clrt], rest)
  | .name ['L', 'O', 'A', 'D'] :: s :: .comma :: .quoted text :: rest =>
    match symbolOperand s, bitsOfText text with
    | some sym, some bits => some ([.load sym bits], rest)
    | _, _ => none
  | .name ['S', 'T', 'A', 'R', 'T'] :: rest => some ([.start], rest)
  | .name ['P', 'U', 'S', 'H'] :: s :: rest => (symbolOperand s).map fun sym => ([.push sym], rest)
  | .name ['E', 'N', 'D'] :: rest => some ([.endStream], rest)
  | .name ['A', 'B', 'O', 'R', 'T'] :: rest => some ([.abort], rest)
  | .name ['.', 'w', 'o', 'r', 'd'] :: .number true value :: rest => some ([.word value], rest)
  | .name ['T', 'A', 'B', 'L', 'E'] :: .openBrace :: rest =>
    (tableEntries rest.length rest).map fun e => (tableLines e.1, e.2)
  | .name ['E', 'N', 'C', 'O', 'D', 'E'] :: .quoted text :: rest => some (encodeText text, rest)
  | _ => none

/-- The lines of a program, one statement to a line, empty lines allowed. The fuel is one more than the number of tokens. -/
def programLines : Nat → List Token → Option (List AsmLine)
  | 0, _ => none
  | _ + 1, [] => some []
  | n + 1, .lineEnd :: rest => programLines n rest
  | n + 1, t :: ts =>
    match statement (t :: ts) with
    | some (lines, []) => some lines
    | some (lines, .lineEnd :: rest) => (programLines n rest).map (lines ++ ·)
    | _ => none

/-- The assembler: a text's command words, none where the text is not a program or an operand is out of its range. -/
def assembleText (text : List Char) : Option (List CmdWord) :=
  match tokens .between text with
  | none => none
  | some ts =>
    match programLines (ts.length + 1) ts with
    | none => none
    | some lines => if lines.all AsmLine.wellFormed then some (assembleAll lines) else none

end Sys2Proof.Machine
end

