-- ==== Sys2Proof/Tests/Slice0.lean ====
section
/-! SUPPORT. Tests: the checks of WellFormed refuse ill-formed terms, command words written out from 30_encoding.md R71 and R74
decode to their commands, single steps give the values of 95_test_vectors.md, and every obligation with hypotheses has a witness
that meets them. -/

namespace Sys2Proof.Tests

open Sys2Proof.Machine

set_option exponentiation.threshold 300

/-! Builders of small states. -/

/-- A cell of the table of the default instance. -/
def cell (sym len code : Nat) : Nat × Entry Config.hse := (sym, ⟨BitVec.ofNat 8 len, BitVec.ofNat 255 code⟩)

/-- A block with the given `STATE` and table, everything else as after reset. -/
def block (state : Phase) (table : Table Config.hse) : Hse Config.hse :=
  { Hse.reset Config.hse with state := state, table := table }

/-- A block in ERROR that has recorded MISSING_CODE of `PUSH 'B'`. -/
def failed : Hse Config.hse := { block .error [cell 0x41 1 0] with err := .missingCode, errop := 0x4, errsym := 0x42 }

/-- A block in ACTIVE with the four bits of `"0101"` pending (V-ST6). -/
def emitting : Hse Config.hse :=
  { block .active [cell 0x4B 4 5] with sh := BitVec.ofNat 255 5, shn := 4, symcnt := 1, bitcnt := 4 }

/-- The machine of a block whose host issues the given words, nothing scheduled. -/
def machine (h : Hse Config.hse) (words : List Nat) : State :=
  { State.reset with hse := h, cmds := words.map (BitVec.ofNat 275) }

/-- The machine with the coming edge's levels. -/
def atEdge (s : State) (rst offer outReady : Bool) : State := { s with edges := [⟨rst, offer, outReady⟩] }

/-- A test of the block after one step. -/
def stepped (s : State) (p : Hse Config.hse → Bool) : Bool := (nextState? (step s)).any fun t => p t.hse

/-- A test of the state after `k` steps. -/
def ran (k : Nat) (s : State) (p : State → Bool) : Bool := (nextState? (Host.Core.run core k s)).any p

theorem ran_next (k : Nat) (s : State) (p : State → Bool) (h : ran k s p = true) :
    ∃ t, Host.Core.run core k s = .next t ∧ p t = true := by
  obtain ⟨t, ht⟩ := run_answers k s
  simp only [ran, ht, nextState?] at h
  exact ⟨t, ht, h⟩

/-! The checks of WellFormed and of the assembler. -/

theorem test_config_default_is_well_formed : Config.wellFormed Config.hse = true := by decide
theorem test_config_refuses_no_symbols : Config.wellFormed ⟨0, 255, 32⟩ = false := by decide
theorem test_config_refuses_no_codewords : Config.wellFormed ⟨8, 0, 32⟩ = false := by decide
theorem test_config_refuses_no_counters : Config.wellFormed ⟨8, 255, 0⟩ = false := by decide
/-- Each unused field, nonzero, is refused as not canonical; `LOAD` uses all of its fields. -/
theorem test_canonical_refuses_unused_fields :
    [Instr.nop 0x12 0 0, .nop 0 3 0, .nop 0 0 7, .clrt 0x7E 0 0, .clrt 0 9 0, .clrt 0 0 5, .start 1 0 0, .start 0 1 0,
      .start 0 0 1, .push 0x41 1 0, .push 0x41 0 1, .endStream 1 0 0, .endStream 0 1 0, .endStream 0 0 1, .abort 1 0 0,
      .abort 0 1 0, .abort 0 0 1].map Instr.canonical = List.replicate 17 false := by decide
theorem test_canonical_accepts :
    [Instr.nop 0 0 0, .clrt 0 0 0, .load 0x43 2 0x7D, .start 0 0 0, .push 0xFF 0 0, .endStream 0 0 0,
      .abort 0 0 0].map Instr.canonical = List.replicate 7 true := by decide
/-- 30_encoding.md R80 to R82: a symbol beyond `N_ENT - 1`, more bits than `LEN` can say, a word beyond `CMD_W` bits. -/
theorem test_assembler_refuses :
    [AsmLine.load 256 [true], .push 256, .word (2 ^ 275)].map AsmLine.wellFormed = List.replicate 3 false ∧
    (AsmLine.load 0 (List.replicate 256 true)).wellFormed = false := by decide +kernel

/-! Parameters (00_scope.md R9). -/

theorem test_default_widths : Config.hse.lenW = 8 ∧ Config.hse.nEnt = 256 ∧ Config.hse.cmdW = 275 := by decide
theorem test_widths_of_ten_bit_codewords : (⟨8, 10, 32⟩ : Config).lenW = 4 ∧ (⟨8, 10, 32⟩ : Config).cmdW = 26 := by decide

/-! Decoding. Each word is written field by field from 30_encoding.md R71 and R74: `CODE` is bits 274 to 20, `LEN` bits 19 to 12,
`SYM` bits 11 to 4, `OP` bits 3 to 0. -/

/-- A word from its four bit fields, `CODE` first. -/
def bits (code : BitVec 255) (len sym : BitVec 8) (op : BitVec 4) : CmdWord := code ++ len ++ sym ++ op

theorem test_decode_nop : decode (bits 0b111 0b00000011 0b00010010 0b0000) = .command (.nop 0x12 3 7) := by decide
theorem test_decode_clrt : decode (bits 0b101 0b00001001 0b01111110 0b0001) = .command (.clrt 0x7E 9 5) := by decide
theorem test_decode_load : decode (bits 0b1111101 0b00000010 0b01000011 0b0010) = .command (.load 0x43 2 0x7D) := by decide
theorem test_decode_start : decode (bits 0b0 0b00000000 0b00000000 0b0011) = .command (.start 0 0 0) := by decide
theorem test_decode_push : decode (bits 0b0 0b00000000 0b01000001 0b0100) = .command (.push 0x41 0 0) := by decide
theorem test_decode_end : decode (bits 0b0 0b00000000 0b10000000 0b0101) = .command (.endStream 0x80 0 0) := by decide
theorem test_decode_abort : decode (bits 0b1 0b00000001 0b00000001 0b0110) = .command (.abort 1 1 1) := by decide
theorem test_decode_reserved : decode (bits 0b0 0b00000000 0b01000001 0b1111) = .reservedOpcode ⟨0xF, 0x41, 0, 0⟩ ∧
    decode (bits 0b0 0b00000000 0b00000000 0b0111) = .reservedOpcode ⟨0x7, 0, 0, 0⟩ := by decide
/-- The top bit of the word is the top bit of `CODE`; V-EN8: all ones is reserved. -/
theorem test_decode_top_bits : decode (BitVec.ofNat 275 (2 ^ 274 + 2)) = .command (.load 0 0 (BitVec.ofNat 255 (2 ^ 254))) ∧
    decode (BitVec.allOnes 275) = .reservedOpcode ⟨0xF, 0xFF, 0xFF, BitVec.allOnes 255⟩ := by decide
/-- V-EN1, V-EN2, V-EN3. -/
theorem test_encode_words : encode (.push 0x41 0 0) = 0x414 ∧ encode (loadBits 0x48 [true, true]) = 0x302482 ∧
    encode (loadBits 0x49 [false, false, false, false]) = 0x4492 := by decide
/-- The host's numbering: 280 bits hold the word of 275, and a set bit above it is no command word. -/
theorem test_decode_table_word : decodeTableWord 280 0x302482 = some (.load 0x48 2 3) ∧ decodeTableWord 280 0x7 = none ∧
    decodeTableWord 280 (2 ^ 275) = none := by decide
theorem test_assembler_program :
    (assembleAll (tableLines [(0x41, [true]), (0x42, [false])] ++ encodeText ['A', 'B'])).map BitVec.toNat =
      [0x1, 0x101412, 0x1422, 0x3, 0x414, 0x424, 0x5] := by decide

/-- A text with each form of 30_encoding.md R80 to R82: comments, decimal, hexadecimal and character operands, a raw word. -/
theorem test_assembler_text :
    (assembleText ("CLRT ; empty\nLOAD 'K', \"0101\"\n\nLOAD 65,\"0\"\nPUSH 0x4b\n.word 0x41F\nABORT").toList).map
      (·.map BitVec.toNat) = some [0x1, 0x5044B2, 0x1412, 0x4B4, 0x41F, 0x6] := by decide
/-- Lower case mnemonics, a symbol out of range and a missing comma are refused. -/
theorem test_assembler_text_refuses :
    assembleText "nop".toList = none ∧ assembleText "PUSH 256".toList = none ∧ assembleText "LOAD 1 \"0\"".toList = none := by
  decide
/-- P2's text, the table over two lines; the braces are the characters 123 and 125. -/
theorem test_assembler_text_pseudo :
    (assembleText ("TABLE ".toList ++ [Char.ofNat 123] ++ "'A': \"1\",\n 'B': \"0\" ".toList ++ [Char.ofNat 125] ++
      "\nENCODE \"AB\"".toList)).map (·.map BitVec.toNat) = some [0x1, 0x101412, 0x1422, 0x3, 0x414, 0x424, 0x5] := by decide

/-! The effect of each command, at most two steps each (95_test_vectors.md sections 2.1 to 2.5). -/

/-- V-CT1b. -/
theorem test_nop_changes_nothing : stepped (machine (Hse.reset Config.hse) [0x703120]) (· == Hse.reset Config.hse) = true := by
  decide
/-- V-CT10. -/
theorem test_nop_in_error : stepped (machine failed [0x0]) (· == failed) = true := by decide
/-- V-TB6, V-TB12. -/
theorem test_clrt_empties : stepped (machine (block .idle [cell 0x41 1 0, cell 0x42 2 2]) [0x5097E1])
    (fun h => h.state == .idle && h.err == .none && h.table == []) = true := by decide
/-- V-TB8. -/
theorem test_clrt_in_active : stepped (machine (block .active [cell 0x41 1 0]) [0x1])
    (fun h => h.state == .error && h.err == .badSequence && h.errop == 1 && h.errsym == 0 && h.table == [cell 0x41 1 0]) = true := by
  decide
/-- V-TB3: the upper bits of `CODE` are stored as zeros. -/
theorem test_load_masks_code : stepped (machine (block .idle []) [0x7D02432])
    (fun h => h.state == .idle && h.table == [cell 0x43 2 1]) = true := by decide
/-- V-TB5b. -/
theorem test_load_of_length_zero : stepped (machine (block .idle []) [0x100412])
    (fun h => h.state == .error && h.err == .badLength && h.errop == 2 && h.errsym == 0x41 && h.table == []) = true := by decide
/-- V-ST9's second `START`. -/
theorem test_start_restarts_the_counters :
    stepped (machine { block .idle [cell 0x41 1 0] with symcnt := 2, bitcnt := 3, out := [false, true, false] } [0x3])
      (fun h => h.state == .active && h.symcnt == 0 && h.bitcnt == 0 && h.mark == 3) = true := by decide
/-- V-ST2. -/
theorem test_start_does_not_nest : stepped (machine (block .active []) [0x3])
    (fun h => h.state == .error && h.err == .badSequence && h.errop == 3) = true := by decide
/-- V-ST12: both counters wrap. -/
theorem test_push_wraps_the_counters :
    stepped (machine { block .active [cell 0x41 3 5] with symcnt := 0xFFFFFFFF, bitcnt := 0xFFFFFFFE } [0x414])
      (fun h => h.state == .active && h.err == .none && h.symcnt == 0 && h.bitcnt == 1 &&
        h.pending == [true, false, true]) = true := by decide
/-- V-ST7's `PUSH 'C'`. -/
theorem test_push_of_no_codeword :
    stepped (machine { block .active [cell 0x41 1 0] with symcnt := 2, bitcnt := 3 } [0x434])
      (fun h => h.state == .error && h.err == .missingCode && h.errop == 4 && h.errsym == 0x43 && h.symcnt == 2 &&
        h.bitcnt == 3 && h.shn == 0) = true := by decide
/-- V-ST5's `END`. -/
theorem test_end_closes : stepped (machine (block .active []) [0x5]) (fun h => h.state == .idle && h.err == .none) = true := by
  decide
/-- V-ST4. -/
theorem test_end_in_idle : stepped (machine (block .idle []) [0x5])
    (fun h => h.state == .error && h.err == .badSequence && h.errop == 5 && h.errsym == 0) = true := by decide
/-- V-CT4. -/
theorem test_abort_in_error : stepped (machine { failed with symcnt := 1, bitcnt := 1 } [0x6])
    (fun h => h.state == .idle && h.err == .none && h.errop == 0 && h.errsym == 0 && h.symcnt == 1 && h.bitcnt == 1 &&
      h.table == [cell 0x41 1 0]) = true := by decide
/-- V-CT3. -/
theorem test_abort_in_active : stepped (machine { block .active [cell 0x41 1 0] with out := [false] } [0x6])
    (fun h => h.state == .idle && h.out == [false] && h.table == [cell 0x41 1 0]) = true := by decide
/-- V-CT5, V-EN8. -/
theorem test_reserved_opcode : stepped (machine (block .idle []) [0x41F])
    (fun h => h.state == .error && h.err == .illegalOp && h.errop == 0xF && h.errsym == 0x41) = true ∧
    stepped (machine (block .idle []) [2 ^ 275 - 1]) (fun h => h.err == .illegalOp && h.errsym == 0xFF) = true := by decide
/-- V-CT7: discarded in ERROR. -/
theorem test_reserved_opcode_in_error : stepped (machine failed [0x41F]) (· == failed) = true := by decide
/-- V-EP1. -/
theorem test_priority_sequence_before_length : stepped (machine (block .active []) [0x412])
    (fun h => h.err == .badSequence && h.errop == 2 && h.errsym == 0x41) = true := by decide
/-- V-RS3. -/
theorem test_reset_discards_pending_bits :
    stepped (atEdge (machine { emitting with shn := 2 } [0x5]) true true true) (· == Hse.reset Config.hse) = true := by decide
/-- The port trace, edges 2 and 3: a bit moves while `END` waits, and a sink that is not ready holds it. -/
theorem test_emit_and_wait :
    stepped (machine emitting [0x5]) (fun h => h.shn == 3 && h.out == [false] && h.state == .active) = true ∧
    stepped (atEdge (machine emitting [0x5]) false true false) (· == emitting) = true := by decide
/-- The ports at edge 3 of the trace. -/
theorem test_ports_while_emitting : ({ emitting with shn := 3 } : Hse Config.hse).ports false =
    ⟨false, true, some true, ⟨1, 0, 0, 0, 1, 4, true, false⟩⟩ := by decide
/-- During reset the status ports still show the registers (10_state.md R33), and nothing is offered or accepted. -/
theorem test_ports_during_reset : emitting.ports true = ⟨false, false, none, ⟨1, 0, 0, 0, 1, 4, true, false⟩⟩ := by decide
/-- V-TB13, V-TB14: codewords of at most ten bits. -/
theorem test_load_beyond_l_max :
    (Hse.accept (c := ⟨8, 10, 32⟩) (0xB412#26) (Hse.reset _)).err = .badLength ∧
    (Hse.accept (c := ⟨8, 10, 32⟩) (0x3FFA412#26) (Hse.reset _)).table = [(0x41, ⟨10, 0x3FF⟩)] := by decide
/-- The first step after reset runs a word placed for it. -/
theorem test_fetch_word : stepped (State.reset.withFetchWord 280 0x1412) (fun h => h.table == [cell 0x41 1 0]) = true := by decide

/-! The host's software (95_test_vectors.md P1, P2, P3). -/

theorem test_frequencies : countFrequencies [0x41, 0x42, 0x41] = [(0x41, 2), (0x42, 1)] := by decide
theorem test_table_of_one_symbol : codeTableOf .examples [0x41, 0x41, 0x41, 0x41] = .ok [(0x41, [false])] := by rfl
theorem test_table_of_two_symbols : codeTableOf .examples [0x41, 0x42] = .ok [(0x41, [true]), (0x42, [false])] := by rfl

/-- R148's choices but for the other orders: the table is iterated and the `LOAD`s issued last first. -/
def backwards : BuildChoices :=
  { BuildChoices.examples with
    freqOrder := List.reverse
    freqOrder_perm := List.reverse_perm
    loadOrder := List.reverse
    loadOrder_perm := List.reverse_perm }

/-- S2 under another order: `B` is the first leaf, so it has `"1"`, and its `LOAD` comes last. -/
theorem test_orders_of_an_implementation :
    codeTableOf backwards [0x41, 0x42] = .ok [(0x42, [true]), (0x41, [false])] ∧
    (match encodeCall backwards [0x41, 0x42] with
      | .ok call => call.2.map fun i => (encode i).toNat
      | .error _ => []) = [0x1, 0x1412, 0x101422, 0x3, 0x414, 0x424, 0x5] := ⟨by rfl, by decide⟩

/-- P1: the call answers the table and `"0000"`; before its last command is accepted it answers nothing. -/
theorem test_call_of_p1 :
    encodeOn .examples [0x41, 0x41, 0x41, 0x41] 12 State.reset =
      some (.encoded [(0x41, [false])] [false, false, false, false]) ∧
    encodeOn .examples [0x41, 0x41, 0x41, 0x41] 11 State.reset = none := by decide
/-- 43_host_side_pipeline.md R133. -/
theorem test_call_on_no_input : encodeOn .examples [] 0 State.reset = some .invalidInput := by decide
/-- P4's first stream: in ERROR the host reads a fatal failure with `st_err = 2`. -/
theorem test_host_reads_a_missing_code : readResult [] none failed.statusPorts = some (.fatal 2) := by decide

/-- 00_scope.md R17, R19: `START`, `PUSH 'A'`, `PUSH 'B'` with no codeword, `ABORT`: one bit left, the block is in IDLE with
`ERR = 0`, and there is no result. -/
theorem test_an_abort_after_a_failure_leaves_no_result :
    ran 5 (machine (block .idle [cell 0x41 1 0]) [0x3, 0x414, 0x424, 0x6]) (fun t => t.hse.sinceStart == [false] &&
      t.result [] (latestResult 5 none (machine (block .idle [cell 0x41 1 0]) [0x3, 0x414, 0x424, 0x6])) ==
        some .noResult) = true := by decide

/-- The schedule with a reset at the edge after the first `k`. -/
def resetAt (k : Nat) (s : State) : State := { s with edges := List.replicate k EdgeLevels.plain ++ [⟨true, false, true⟩] }

/-- 60_exceptions.md R164: the failed stream of P4, and a reset after its `END` was discarded, before the reading. -/
theorem test_a_reset_after_a_failure_leaves_no_result :
    ran 6 (resetAt 5 (machine (block .idle [cell 0x41 1 0]) [0x3, 0x414, 0x424, 0x5])) (fun t =>
      t.result [] (latestResult 6 none (resetAt 5 (machine (block .idle [cell 0x41 1 0]) [0x3, 0x414, 0x424, 0x5]))) ==
        some .noResult) = true := by decide

/-- "KHOAHOCTUNHIEN". -/
def known : List Sym := [0x4B, 0x48, 0x4F, 0x41, 0x48, 0x4F, 0x43, 0x54, 0x55, 0x4E, 0x48, 0x49, 0x45, 0x4E]

/-- P3's table: each symbol with the numbers its `LOAD` holds. -/
theorem test_table_of_the_known_text :
    (match codeTableOf .examples known with
      | .ok t => [0x4B, 0x48, 0x4F, 0x41, 0x43, 0x54, 0x55, 0x4E, 0x49, 0x45].map fun x =>
          (t.code? x).map fun q => (encode (loadBits x q)).toNat
      | .error _ => []) =
      [some 0x5044B2, some 0x302482, some 0x4034F2, some 0x404412, some 0x304432, some 0x204542, some 0x104552,
        some 0x3034E2, some 0x4492, some 0x503452] := by decide

/-! Witnesses: for every obligation with hypotheses, states and operands that meet them all, clause by clause. That a step or a
command answers a next state is part of most hypotheses, and every one does (`step_answers`, `exec_eq`). -/

/-- The word the coming edge accepts, if it accepts one. -/
def accepted (s : State) : Option Nat :=
  match s.event with
  | .accept w => some w.toNat
  | .reset => none
  | .transfer => none
  | .quiet => none

theorem witness_OpcodeAloneSelectsTheCommand :
    decode 0x6 = .command (.abort 0 0 0) ∧ decode 0x5097E1 = .command (.clrt 0x7E 9 5) ∧
    decode 0x1 = .command (.clrt 0 0 0) ∧ (0x6#275 &&& 0xF).toNat = 6 ∧ (0x7#275 &&& 0xF).toNat = 7 := by decide

theorem witness_UnusedFieldsAreIgnored :
    [AsmLine.nop, .clrt, .load 255 (List.replicate 255 true), .load 0 [], .start, .push 255, .endStream, .abort,
      .word (2 ^ 275 - 1)].map AsmLine.wellFormed = List.replicate 9 true := by decide +kernel

theorem witness_UnusedFieldsAreIgnored_error_entry :
    (machine (block .active []) []).hse.state ≠ .error ∧
    ∃ t, exec (.start 0x12 0 0) (machine (block .active []) []) = .next t ∧ t.hse.state = .error := ⟨by decide, _, rfl, rfl⟩

theorem witness_LoadedCodewordIsLookedUp :
    (machine (block .idle []) []).hse.state = .idle ∧ 1 ≤ [true].length ∧ [true].length ≤ 255 ∧
    1 ≤ (List.replicate 255 true).length ∧ (List.replicate 255 true).length ≤ 255 := by decide +kernel

theorem witness_ClrtEmptiesTheTable :
    ∃ t, (machine (block .idle [cell 0x41 1 0]) []).hse.state = .idle ∧
      exec (.clrt 0 0 0) (machine (block .idle [cell 0x41 1 0]) []) = .next t := ⟨_, by decide, rfl⟩

theorem witness_LoadWritesOneEntry :
    ∃ t u, (machine (block .idle []) []).hse.state = .idle ∧ 1 ≤ (1 : Len).toNat ∧ (1 : Len).toNat ≤ 255 ∧
      exec (.load 0 1 1) (machine (block .idle []) []) = .next t ∧ 1 ≤ (255 : Len).toNat ∧ (255 : Len).toNat ≤ 255 ∧
      exec (.load 0xFF 255 1) (machine (block .idle []) []) = .next u :=
  ⟨_, _, by decide, by decide, by decide, rfl, by decide, by decide, rfl⟩

theorem witness_PushQueuesTheCodeword :
    ∃ t, (machine (block .active [cell 0x4B 4 5]) []).hse.state = .active ∧
      (machine (block .active [cell 0x4B 4 5]) []).hse.lookup 0x4B = some [false, true, false, true] ∧
      exec (.push 0x4B 0 0) (machine (block .active [cell 0x4B 4 5]) []) = .next t := ⟨_, by decide, by decide, rfl⟩

/-- The lowest and the highest reserved opcode, in IDLE, in ACTIVE and in ERROR. -/
theorem witness_ReservedOpcodeRaisesIllegalOp :
    ∀ s ∈ [machine (block .idle []) [0x7], machine (block .active []) [0x41F], machine failed [0x7]],
      s.now.rst = false ∧ s.now.offer = true ∧ s.hse.shn = 0 ∧
      ∃ w rest, s.cmds = w :: rest ∧ 7 ≤ (w.extractLsb' 0 4).toNat := by
  simp only [List.forall_mem_cons]
  exact ⟨⟨rfl, rfl, rfl, _, _, rfl, by decide⟩, ⟨rfl, rfl, rfl, _, _, rfl, by decide⟩,
    ⟨rfl, rfl, rfl, _, _, rfl, by decide⟩, by simp⟩

theorem witness_LoadLengthsAtEveryConfiguration :
    (Hse.reset ⟨8, 10, 32⟩).state = .idle ∧ (0 : BitVec (Config.lenW ⟨8, 10, 32⟩)).toNat = 0 ∧
    10 < (11 : BitVec (Config.lenW ⟨8, 10, 32⟩)).toNat ∧ 1 ≤ (1 : BitVec (Config.lenW ⟨8, 10, 32⟩)).toNat ∧
    (10 : BitVec (Config.lenW ⟨8, 10, 32⟩)).toNat ≤ 10 := by decide

theorem witness_TableCommandFrame :
    ∃ t u v, exec (.load 0x41 1 0) (machine (block .idle []) []) = .next t ∧ t.hse.state ≠ .error ∧
      exec (.clrt 0 0 0) (machine (block .active []) []) = .next u ∧ u.hse.state = .error ∧
      exec (.load 0x41 0 0) (machine failed []) = .next v ∧ (machine failed []).hse.state = .error :=
  ⟨_, _, _, rfl, by decide, rfl, by decide, rfl, by decide⟩

theorem witness_StreamCommandFrame :
    ∃ t u v w, exec (.start 0 0 0) (machine (block .idle []) []) = .next t ∧ t.hse.state ≠ .error ∧
      exec (.push 0x41 0 0) (machine (block .active []) []) = .next u ∧ u.hse.state = .error ∧
      exec (.endStream 0 0 0) (machine (block .active []) []) = .next v ∧ v.hse.state ≠ .error ∧
      exec (.push 0x41 0 0) (machine failed []) = .next w ∧ (machine failed []).hse.state = .error :=
  ⟨_, _, _, _, rfl, by decide, rfl, by decide, rfl, by decide, rfl, by decide⟩

theorem witness_ControlCommandFrame :
    ∃ t u v, exec (.nop 1 2 3) (machine failed []) = .next t ∧ exec (.abort 0 0 0) (machine failed []) = .next u ∧
      execReserved ⟨0x7, 0x41, 0, 0⟩ (machine (block .idle []) []) = .next v := ⟨_, _, _, rfl, rfl, rfl⟩

theorem witness_ErrorEntryWritesFourRegisters :
    ∃ t, step (machine (block .active []) [0x434]) = .next t ∧ (machine (block .active []) [0x434]).hse.state ≠ .error ∧
      t.hse.state = .error := ⟨_, rfl, by decide, by decide⟩

/-- One state for each line of the order, at the first and the last value of the line's range. -/
theorem witness_ErrorPriorityOrder :
    accepted (machine failed [0x0]) = some 0x0 ∧ accepted (machine failed [0x6]) = some 0x6 ∧
    accepted (machine failed [0x1]) = some 0x1 ∧ failed.state = .error ∧ accepted (machine failed [0xF]) = some 0xF ∧
    accepted (machine (block .idle []) [0x7]) = some 0x7 ∧ accepted (machine (block .active []) [0xF]) = some 0xF ∧
    accepted (machine (block .active []) [0x1]) = some 0x1 ∧ accepted (machine (block .active []) [0x412]) = some 0x412 ∧
    accepted (machine (block .active []) [0x3]) = some 0x3 ∧ accepted (machine (block .idle []) [0x4]) = some 0x4 ∧
    accepted (machine (block .idle []) [0x5]) = some 0x5 ∧ accepted (machine (block .idle []) [0x412]) = some 0x412 ∧
    accepted (machine (block .idle []) [0x1412]) = some 0x1412 ∧
    accepted (machine (block .idle []) [0x1FF412]) = some 0x1FF412 ∧
    accepted (machine (block .active []) [0x434]) = some 0x434 ∧
    ((block .active []).entry 0x43).len.toNat = 0 ∧ accepted (machine (block .active [cell 0x43 1 0]) [0x434]) = some 0x434 ∧
    ((block .active [cell 0x43 1 0]).entry 0x43).len.toNat = 1 := by decide

theorem failed_inv : failed.inv := by decide
theorem emitting_inv : emitting.inv := by decide

theorem witness_CommandsAreDiscardedInError :
    failed.state = .error ∧ accepted (machine failed [0x5]) = some 0x5 ∧ (0x5#275).extractLsb' 0 4 ≠ 0x6 ∧
    accepted (machine failed [0x7]) = some 0x7 ∧ (0x7#275).extractLsb' 0 4 ≠ 0x6 ∧
    accepted (machine failed [0x6]) = some 0x6 ∧ (0x6#275).extractLsb' 0 4 = 0x6 ∧ (machine failed [0x7]).inv ∧
    (machine failed [0x7]).now.rst = false ∧ (machine failed [0x7]).now.offer = true ∧ (machine failed [0x7]).cmds = [0x7] := by
  decide

/-- A discarded word, `ABORT` and reset in ERROR. -/
theorem witness_FirstErrorWins :
    (machine failed [0x5]).hse.state = .error ∧ accepted (machine failed [0x5]) = some 0x5 ∧
    accepted (machine failed [0x6]) = some 0x6 ∧ (atEdge (machine failed [0x5]) true true true).event = .reset := by decide

/-- `ERR` already at INVALID_INPUT, a state no run reaches. -/
theorem witness_InvalidInputIsNeverRaised :
    ∃ t, step (machine { failed with err := .invalidInput } [0x5]) = .next t ∧ t.hse.err = .invalidInput := ⟨_, rfl, by decide⟩

/-- One state for each arc of 10_state.md R22 and for each event that is not a command. -/
theorem witness_StateTransitionTable :
    (atEdge (machine failed []) true true true).event = .reset ∧ (machine emitting [0x5]).event = .transfer ∧
    (machine (block .idle []) []).event = .quiet ∧
    [machine (block .idle []) [0x3], machine (block .idle []) [0x0], machine (block .idle []) [0x1],
      machine (block .idle []) [0x1412], machine (block .idle []) [0x1FF412], machine (block .idle []) [0x6],
      machine (block .idle []) [0x4], machine (block .idle []) [0x412], machine (block .active []) [0x5],
      machine (block .active []) [0x6], machine (block .active [cell 0x41 1 0]) [0x414], machine (block .active []) [0x414],
      machine (block .active []) [0x1], machine failed [0x0], machine failed [0x6], machine failed [0xF]].map accepted =
      [0x3, 0x0, 0x1, 0x1412, 0x1FF412, 0x6, 0x4, 0x412, 0x5, 0x6, 0x414, 0x414, 0x1, 0x0, 0x6, 0xF].map some := by decide

/-- Every event, and a `PUSH` whose counters wrap. -/
theorem witness_CountersCountPushes :
    (atEdge (machine failed []) true true true).event = .reset ∧ (machine emitting [0x5]).event = .transfer ∧
    (machine (block .idle []) []).event = .quiet ∧ accepted (machine (block .idle []) [0x3]) = some 0x3 ∧
    accepted (machine { block .active [cell 0x41 3 5] with symcnt := 0xFFFFFFFF, bitcnt := 0xFFFFFFFE } [0x414]) = some 0x414 ∧
    (block .active [cell 0x41 3 5]).lookup 0x41 = some [true, false, true] ∧
    accepted (machine (block .active []) [0x414]) = some 0x414 ∧ (block .active []).lookup 0x41 = none ∧
    accepted (machine (block .active []) [0x3]) = some 0x3 := by decide

theorem witness_StepRunsTheDecodedCommand :
    (State.reset.withFetchWord 280 0x302482).now.rst = false ∧ (State.reset.withFetchWord 280 0x302482).now.offer = true ∧
    (State.reset.withFetchWord 280 0x302482).hse.shn = 0 ∧ (State.reset.withFetchWord 280 0x302482).cmds = [0x302482] ∧
    decode 0x302482 = .command (.load 0x48 2 3) := by decide

theorem witness_CommandInterlock : emitting.shn.toNat ≠ 0 := by decide

theorem witness_OutputHandshake :
    (emitting.ports false).outValid = true ∧ emitting.shn.toNat ≠ 0 ∧
    (⟨false, none, true⟩ : PortsIn Config.hse).rst = false ∧ (⟨false, none, true⟩ : PortsIn Config.hse).outReady = true ∧
    (⟨false, none, false⟩ : PortsIn Config.hse).outReady = false := by decide

/-- A bit that moves, the last bit, and a run of three steps with two transfers. -/
theorem witness_PendingBitsLeaveInOrder :
    (machine emitting []).now.rst = false ∧ emitting.shn ≠ 0 ∧ (machine emitting []).now.outReady = true ∧
    ({ emitting with shn := 1 } : Hse Config.hse).shn ≠ 0 ∧ (atEdge (machine emitting [0x5]) false true false).resetFree ∧
    ∃ t, Host.Core.run core 3 (atEdge (machine emitting [0x5]) false true false) = .next t ∧
      (t.cmds == [0x5] && t.hse.shn == 2) = true :=
  ⟨by decide, by decide, by decide, by decide, by decide, ran_next 3 _ _ (by decide)⟩

theorem witness_PushWithItsEmitStepsIsAtomic : (block .active [cell 0x4B 4 5]).shn = 0 := by decide

theorem witness_ResetWinsAtAnyEdge : (atEdge (machine emitting [0x5]) true true true).now.rst = true := by decide

theorem witness_EveryEdgeKeepsTheInvariants : emitting.inv ∧ failed.inv ∧ (Hse.reset ⟨8, 10, 2⟩).inv := by decide

theorem witness_EveryStepKeepsTheInvariants :
    ∃ t, (machine emitting [0x5]).inv ∧ step (machine emitting [0x5]) = .next t := ⟨_, by decide, rfl⟩

theorem witness_InvariantsBoundEveryEntry : emitting.inv ∧ failed.inv ∧ failed.state ≠ .active := by decide

theorem witness_TableIsFrozenDuringAStream :
    (block .active [cell 0x41 1 0]).state = .active ∧ (machine (block .active [cell 0x41 1 0]) [0x1]).now.rst = false ∧
    accepted (machine (block .active [cell 0x41 1 0]) [0x1]) = some 0x1 ∧ (0x1#275).extractLsb' 0 4 = 0x1 ∧
    accepted (machine (block .active [cell 0x41 1 0]) [0x412]) = some 0x412 ∧ (0x412#275).extractLsb' 0 4 = 0x2 := by decide

/-- The stuck sink of the port trace. -/
def stuckMachine : State := { machine emitting [0x5] with later := ⟨false, true, false⟩ }

theorem witness_StuckSinkBlocksAllButReset : stuckMachine.stuck ∧ (⟨true, true, false⟩ : EdgeLevels).rst = true := by decide

/-- A stream that completes, one that fails, one that is abandoned by `ABORT` or by reset, and one that stays open. -/
theorem witness_StreamsEndAsDefined :
    (∃ t, step (machine (block .active []) [0x5]) = .next t) ∧ (block .active []).state = .active ∧
    (machine { block .active [] with out := [true, false], mark := 1 } [0x5]).streamEnd = some (.completed [false]) ∧
    (machine (block .active []) [0x414]).streamEnd = some (.failed .missingCode) ∧
    (machine (block .active []) [0x6]).streamEnd = some .abandoned ∧
    (atEdge (machine (block .active []) [0x5]) true true true).streamEnd = some .abandoned ∧
    (machine (block .active []) [0x0]).streamEnd = none := ⟨step_answers _, by decide⟩

theorem witness_LengthProperty :
    (machine { block .active [] with out := [true, false], mark := 1, bitcnt := 1 } [0x5]).inv ∧
    (machine { block .active [] with out := [true, false], mark := 1, bitcnt := 1 } [0x5]).streamEnd =
      some (.completed [false]) ∧ [false].length < 2 ^ 32 := by decide

theorem witness_LookupIsTheLatestLoad :
    (block .idle [cell 0x41 1 0]).state = .idle ∧ (block .idle [cell 0x41 1 0]).shn = 0 ∧ 1 ≤ (3 : Len).toNat ∧
    (∀ i ∈ [Instr.clrt 0 0 0] ++ [Instr.load 0x42 1 1],
      (∃ a b d, i = .clrt a b d) ∨ ∃ a b d, i = .load a b d ∧ 1 ≤ b.toNat) ∧
    (∀ i ∈ [Instr.load 0x42 1 1], ∃ a b d, i = .load a b d ∧ a ≠ (0x41 : Sym)) := by
  refine ⟨by decide, by decide, by decide, ?_, ?_⟩
  · simp only [List.cons_append, List.nil_append, List.forall_mem_cons]
    exact ⟨.inl ⟨_, _, _, rfl⟩, .inr ⟨_, _, _, rfl, by decide⟩, by simp⟩
  · simp only [List.forall_mem_cons]
    exact ⟨⟨_, _, _, rfl, by decide⟩, by simp⟩

/-- A machine whose two commands run to their end in six steps, with the sink not ready at the first. -/
def twoCommands : State := atEdge (machine (block .active [cell 0x4B 4 5]) [0x4B4, 0x5]) false true false

theorem witness_StepRefinesTheTransactionLevel :
    twoCommands.now.rst = false ∧ twoCommands.resetFree ∧ (∃ t, step twoCommands = .next t) ∧
    ∃ t, Host.Core.run core 6 twoCommands = .next t ∧ (t.cmds == [] && t.hse.shn == 0) = true :=
  ⟨by decide, by decide, step_answers _, ran_next 6 _ _ (by decide)⟩

/-- The same two commands, the second time with an edge at which the host offers nothing. -/
theorem witness_OutcomeDoesNotDependOnTiming :
    twoCommands.hse = (atEdge twoCommands false false true).hse ∧ twoCommands.cmds = (atEdge twoCommands false false true).cmds ∧
    twoCommands.resetFree ∧ (atEdge twoCommands false false true).resetFree ∧
    (∃ t, Host.Core.run core 6 twoCommands = .next t ∧ (t.cmds == [] && t.hse.shn == 0) = true) ∧
    ∃ t, Host.Core.run core 7 (atEdge twoCommands false false true) = .next t ∧ (t.cmds == [] && t.hse.shn == 0) = true :=
  ⟨by decide, by decide, by decide, by decide, ran_next 6 _ _ (by decide), ran_next 7 _ _ (by decide)⟩

theorem witness_EveryProgramRunsToItsEnd : twoCommands.fair := by decide

/-- P1's stream with a `NOP` in it, from the loaded table. -/
def oneStream : State := machine (block .idle [cell 0x41 1 0]) [0x3, 0x414, 0x0, 0x414, 0x5]

theorem witness_EncoderContractOnSuccess :
    oneStream.resetFree ∧ oneStream.hse.state = .idle ∧ oneStream.hse.err = .none ∧ oneStream.hse.shn = 0 ∧
    pushedSymbols [.push 0x41 0 0, .nop 0 0 0, .push 0x41 0 0] = some [0x41, 0x41] ∧
    oneStream.cmds =
      (Instr.start 0 0 0 :: [.push 0x41 0 0, .nop 0 0 0, .push 0x41 0 0] ++ [Instr.endStream 0 0 0]).map encode ∧
    oneStream.hse.encoderOutput [0x41, 0x41] = some [false, false] ∧
    ∃ t, Host.Core.run core 7 oneStream = .next t ∧ (t.cmds == []) = true :=
  ⟨by decide, by decide, by decide, by decide, by decide, by decide, by decide, ran_next 7 _ _ (by decide)⟩

/-- V-ST7's stream: `'C'` has no codeword. -/
def failingStream : State := machine (block .idle [cell 0x41 1 0, cell 0x42 2 2]) [0x3, 0x414, 0x424, 0x434, 0x414, 0x5]

theorem witness_EncoderContractOnAMissingCode :
    failingStream.resetFree ∧ failingStream.hse.state = .idle ∧ failingStream.hse.shn = 0 ∧
    pushedSymbols [.push 0x41 0 0, .push 0x42 0 0, .push 0x43 0 0, .push 0x41 0 0] = some ([0x41, 0x42] ++ 0x43 :: [0x41]) ∧
    failingStream.cmds = (Instr.start 0 0 0 :: [.push 0x41 0 0, .push 0x42 0 0, .push 0x43 0 0, .push 0x41 0 0] ++
      [Instr.endStream 0 0 0]).map encode ∧
    failingStream.hse.encoderOutput [0x41, 0x42] = some [false, true, false] ∧ failingStream.hse.lookup 0x43 = none ∧
    ∃ t, Host.Core.run core 9 failingStream = .next t ∧ (t.cmds == []) = true :=
  ⟨by decide, by decide, by decide, by decide, by decide, by decide, by decide, ran_next 9 _ _ (by decide)⟩

theorem witness_CodeTableIsPrefixFreeAndCovering :
    known ≠ [] ∧ (∀ x ∈ [(0x41 : Sym), 0x41], ∀ y ∈ [(0x41 : Sym), 0x41], x = y) := by decide

theorem witness_CodewordsFitTheTable : codeTableOf .examples [0x41, 0x42] = .ok [(0x41, [true]), (0x42, [false])] := by rfl

/-- P2's commands after reset, run to their end in nine steps. -/
theorem witness_EncodeCallGivesTheEncodedOutput :
    [(0x41 : Sym), 0x42] ≠ [] ∧ State.reset.hse.err = .none ∧ State.reset.hse.state = .idle ∧ State.reset.hse.shn = 0 ∧
    (∃ table is, encodeCall .examples [0x41, 0x42] = .ok (table, is) ∧
      (machine (Hse.reset Config.hse) [0x1, 0x101412, 0x1422, 0x3, 0x414, 0x424, 0x5]).cmds = is.map encode) ∧
    (machine (Hse.reset Config.hse) [0x1, 0x101412, 0x1422, 0x3, 0x414, 0x424, 0x5]).resetFree ∧
    ∃ t, Host.Core.run core 9 (machine (Hse.reset Config.hse) [0x1, 0x101412, 0x1422, 0x3, 0x414, 0x424, 0x5]) = .next t ∧
      (t.cmds == []) = true :=
  ⟨by decide, by decide, by decide, by decide, ⟨_, _, rfl, by decide⟩, by decide, ran_next 9 _ _ (by decide)⟩

/-- P2's table and its reverse. -/
theorem witness_EveryHostTableLoadsInAnyOrder :
    codeTableOf .examples [0x41, 0x42] = .ok [(0x41, [true]), (0x42, [false])] ∧
    [((0x42 : Sym), [false]), (0x41, [true])].Perm [(0x41, [true]), (0x42, [false])] ∧
    (block .idle [cell 0x43 1 0]).state = .idle ∧ (block .idle [cell 0x43 1 0]).shn = 0 :=
  ⟨by rfl, .swap _ _ _, by decide, by decide⟩

/-- A block in each phase, with a result held and with none. -/
theorem witness_HostReadsTheOutcome :
    (block .idle []).inv ∧ (block .idle []).state = .idle ∧ (∃ held : Option Bits, held = some [true]) ∧
    (∃ held : Option Bits, held = none) ∧ failed.inv ∧ failed.state = .error ∧ emitting.inv ∧ emitting.state = .active :=
  ⟨by decide, by decide, ⟨_, rfl⟩, ⟨_, rfl⟩, failed_inv, by decide, emitting_inv, by decide⟩

theorem witness_EncodeCallAnswersItsCaller :
    State.reset.cmds = [] ∧ State.reset.hse.state = .idle ∧ State.reset.hse.err = .none ∧ State.reset.hse.shn = 0 ∧
    State.reset.resetFree ∧ State.reset.fair ∧ encodeOn .examples [] 0 State.reset = some .invalidInput ∧
    encodeOn .examples [0x41, 0x42] 9 State.reset =
      some (.encoded [(0x41, [true]), (0x42, [false])] [true, false]) := by decide

/-- A stream of one symbol, completed by the fourth edge and read after the sixth. -/
theorem witness_HostHoldsOnlyCompletedResults :
    (machine (block .idle [cell 0x41 1 1]) [0x3, 0x414, 0x5, 0x0]).resetFree ∧
    latestResult 6 none (machine (block .idle [cell 0x41 1 1]) [0x3, 0x414, 0x5, 0x0]) = some [true] ∧
    ∃ t, Host.Core.run core 6 (machine (block .idle [cell 0x41 1 1]) [0x3, 0x414, 0x5, 0x0]) = .next t ∧
      (t.cmds == []) = true := ⟨by decide, by decide, ran_next 6 _ _ (by decide)⟩

/-- P2, read after a reset that comes when its stream has completed. -/
theorem witness_EncodeCallAnswersNoPartialResult :
    encodeOn .examples [0x41, 0x42] 10 (resetAt 9 State.reset) =
      some (.encoded [(0x41, [true]), (0x42, [false])] [true, false]) := by decide

end Sys2Proof.Tests
end

/-! PROOFS. The transaction level: what a step leaves of it, what a run ends in, and that every program with a fair schedule ends
(O44, O45, O46). -/

namespace Sys2Proof.Machine

/-- The block that the remaining command words lead to. -/
abbrev State.outcome (s : State) : Hse Config.hse := Hse.runWords s.cmds s.hse

/-- A transferred bit is one that the drain before the next word transfers (41_stream_commands.md R111). -/
theorem Hse.runWords_emit {c : Config} (ws : List (BitVec c.cmdW)) (h : Hse c) (hn : h.shn ≠ 0) :
    Hse.runWords ws h.emit = Hse.runWords ws h := by
  rw [← Hse.runWords_drain, Hse.drain_emit h hn, Hse.runWords_drain]

/-- Accepting the next word is what the transaction level does with a block that has no bit pending. -/
theorem Hse.runWords_cons_of_shn_zero {c : Config} (w : BitVec c.cmdW) (ws : List (BitVec c.cmdW)) (h : Hse c)
    (hn : h.shn = 0) : Hse.runWords (w :: ws) h = Hse.runWords ws (h.accept w) := by
  rw [Hse.runWords, Hse.drain_of_shn_zero h hn]

theorem outcome_step (s t : State) (hr : s.now.rst = false) (h : step s = .next t) : t.outcome = s.outcome := by
  rcases step_next_cases s t h with ⟨he, -⟩ | ⟨-, hn, rfl⟩ | ⟨w, rest, -, hn, hs, ht, -, -, hh⟩ | ⟨-, rfl⟩
  · simp [(State.event_reset_iff s).mp he] at hr
  · exact Hse.runWords_emit s.cmds s.hse hn
  · rw [State.outcome, State.outcome, hs, ht, hh, Hse.runWords_cons_of_shn_zero w rest s.hse hn]
  · rfl

theorem outcome_run (k : Nat) (s t : State) (hf : s.resetFree) (h : Host.Core.run Sys2Proof.core k s = .next t) :
    t.outcome = s.outcome := by
  refine (run_keeps (fun u => u.resetFree ∧ u.outcome = s.outcome) ?_ k s t ⟨hf, rfl⟩ h).2
  rintro u v ⟨hu, hout⟩ hv
  exact ⟨State.resetFree_step u v hu hv, (outcome_step u v (State.resetFree_now u hu) hv).trans hout⟩

/-- A finished machine's block is its own outcome. -/
theorem outcome_of_finished (s : State) (h : s.finished) : s.outcome = s.hse := by
  rw [State.outcome, h.1, Hse.runWords, Hse.drain_of_shn_zero s.hse h.2]

/-- Settles O44: a bit that moves and a word that is accepted are moves of the transaction level, any other edge changes nothing. -/
theorem stepRefinesTheTransactionLevel : Obligations.StepRefinesTheTransactionLevel :=
  ⟨outcome_step, fun k s t hf h hfin => (outcome_of_finished t hfin).symm.trans (outcome_run k s t hf h)⟩

/-- Settles O45: both runs end in the block that the transaction level gives. -/
theorem outcomeDoesNotDependOnTiming : Obligations.OutcomeDoesNotDependOnTiming := by
  intro k k' s s' t t' hh hc hf hf' h h' hfin hfin'
  rw [stepRefinesTheTransactionLevel.2 k s t hf h hfin, stepRefinesTheTransactionLevel.2 k' s' t' hf' h' hfin', hh, hc]

/-! Termination under a fair schedule. -/

/-- What is left to do: the listed edges, and each command word with the bits it may make pending, fewer than `2^LEN_W`. -/
def State.work (s : State) : Nat := s.edges.length + 2 ^ Config.hse.lenW * s.cmds.length + s.hse.shn.toNat

/-- A fair schedule has no reset. -/
theorem State.resetFree_of_fair (s : State) (hf : s.fair) : s.resetFree := ⟨hf.1, by rw [hf.2]; rfl⟩

/-- A schedule that is fair stays fair. -/
theorem State.fair_step (s t : State) (hf : s.fair) (h : step s = .next t) : t.fair := by
  have hlater : t.later = s.later := by
    rcases step_next_cases s t h with ⟨-, rfl⟩ | ⟨-, -, rfl⟩ | ⟨w, rest, -, -, -, -, -, hl, -⟩ | ⟨-, rfl⟩
    exacts [rfl, rfl, hl, rfl]
  exact ⟨(s.resetFree_step t (s.resetFree_of_fair hf) h).1, hlater.trans hf.2⟩

/-- With no edge listed, every edge offers and accepts, so that only a finished machine has a quiet edge. -/
theorem State.finished_of_quiet (s : State) (hf : s.fair) (he : s.edges = []) (hq : s.event = .quiet) : s.finished := by
  have hnow : s.now = EdgeLevels.plain := by rw [State.now, he]; exact hf.2
  have hshn : s.hse.shn = 0 := by
    by_contra hn
    rw [(State.event_transfer_iff s).mpr ⟨by rw [hnow]; rfl, hn, by rw [hnow]; rfl⟩] at hq
    cases hq
  refine ⟨?_, hshn⟩
  cases hc : s.cmds with
  | nil => rfl
  | cons w rest =>
    rw [(State.event_accept_iff s w).mpr ⟨by rw [hnow]; rfl, hshn, by rw [hnow]; rfl, by rw [hc]; rfl⟩] at hq
    cases hq

/-- Every step of an unfinished machine with a fair schedule leaves less to do. -/
theorem State.work_step (s t : State) (hf : s.fair) (hfin : ¬ s.finished) (h : step s = .next t) : t.work < s.work := by
  have hedges : s.edges.tail.length ≤ s.edges.length := by simp
  rcases step_next_cases s t h with ⟨he, -⟩ | ⟨-, hn, rfl⟩ | ⟨w, rest, -, hn, hs, ht, hed, -, -⟩ | ⟨hq, rfl⟩
  · exact absurd ((State.event_reset_iff s).mp he) (by simp [s.resetFree_now (s.resetFree_of_fair hf)])
  · have hpos : s.hse.shn.toNat ≠ 0 := fun h0 => hn (s.hse.shn_toNat_zero.mp h0)
    simp only [State.work, State.takeTransfer_edges, State.takeTransfer_cmds, State.takeTransfer_hse, Hse.emit_shn,
      Hse.shn_pred s.hse hn]
    omega
  · have hlt := t.hse.shn.isLt
    simp only [State.work, hs, ht, hed, List.length_cons, Nat.mul_succ]
    omega
  · cases he : s.edges with
    | nil => exact absurd (s.finished_of_quiet hf he hq) hfin
    | cons e es => simp [State.work, he]

/-- Settles O46, by induction on what is left to do. -/
theorem everyProgramRunsToItsEnd : Obligations.EveryProgramRunsToItsEnd := by
  intro s hf
  induction hw : s.work using Nat.strong_induction_on generalizing s with
  | _ n ih =>
    by_cases hfin : s.finished
    · exact ⟨0, s, rfl, hfin⟩
    · obtain ⟨t, ht⟩ := step_answers s
      obtain ⟨k, u, hu, hufin⟩ := ih t.work (hw ▸ s.work_step t hf hfin ht) t (s.fair_step t hf ht) rfl
      exact ⟨k + 1, u, (run_succ k s t ht).trans hu, hufin⟩

end Sys2Proof.Machine

/-! PROOFS. The encoder's contract on the transaction level: a command's word has the command's effect, and the words of a stream
whose symbols all have codewords transfer these codewords in order (O47). -/

namespace Sys2Proof

/-- The fields of an encoded word are the ones it was made of (30_encoding.md R78): at a field's own positions the fields below it
have no bit and those above it begin later. -/
theorem Cmd.ofWord_toWord {c : Config} (cmd : Cmd c) : Cmd.ofWord cmd.toWord = cmd := by
  obtain ⟨op, sym, len, code⟩ := cmd
  have hop : ∀ j, 4 ≤ j → op.getLsbD j = false := fun j => BitVec.getLsbD_of_ge op j
  have hsym : ∀ j, c.symW ≤ j → sym.getLsbD j = false := fun j => BitVec.getLsbD_of_ge sym j
  have hlen : ∀ j, c.lenW ≤ j → len.getLsbD j = false := fun j => BitVec.getLsbD_of_ge len j
  simp only [Cmd.ofWord, Cmd.toWord, Cmd.mk.injEq]
  refine ⟨Laws.OpcodeField.toWord_op ⟨op, sym, len, code⟩, ?_, ?_, ?_⟩
  · refine BitVec.eq_of_getLsbD_eq fun i hi => ?_
    have hw : 4 + i < c.cmdW ∧ i < c.cmdW := by simp only [Config.cmdW]; omega
    simp [hi, hw, show 4 + i < 4 + c.symW + c.lenW by omega]
  · refine BitVec.eq_of_getLsbD_eq fun i hi => ?_
    have hw : 4 + c.symW + i < c.cmdW ∧ i < c.cmdW := by simp only [Config.cmdW]; omega
    simp [hi, hw, hop (4 + c.symW + i) (by omega), hsym (4 + c.symW + i - 4) (by omega),
      show 4 + c.symW + i < 4 + c.symW + c.lenW by omega]
  · refine BitVec.eq_of_getLsbD_eq fun i hi => ?_
    have hw : 4 + c.symW + c.lenW + i < c.cmdW ∧ i < c.cmdW := by simp only [Config.cmdW]; omega
    simp [hi, hw, hop (4 + c.symW + c.lenW + i) (by omega), hsym (4 + c.symW + c.lenW + i - 4) (by omega),
      hlen (4 + c.symW + c.lenW + i - (4 + c.symW)) (by omega)]

namespace Machine

/-- The word of a command has the command's effect. -/
theorem accept_encode (i : Instr) : Hse.accept (encode i) = effect i :=
  (effect_eq_accept i (encode i) (Cmd.ofWord_toWord i.toCmd).symm).symm

variable {c : Config}

/-- The drain adds the pending bits to those since `START`. -/
theorem Hse.sinceStart_drain (h : Hse c) (hm : h.mark ≤ h.out.length) : h.drain.sinceStart = h.sinceStart ++ h.pending := by
  rw [Hse.drain_eq]
  exact List.drop_append_of_le_length hm

theorem Hse.lookup_eq_none_iff (h : Hse c) (sym : BitVec c.symW) : h.lookup sym = none ↔ (h.entry sym).len = 0 :=
  Entry.codeword_none _

/-- A codeword that is found is the one that queueing its entry makes pending. -/
theorem Hse.pending_queue (h : Hse c) (sym : BitVec c.symW) (q : Bits) (hq : h.lookup sym = some q) :
    (h.queue (h.entry sym)).pending = q := by
  have hne : (h.entry sym).len ≠ 0 := fun h0 => by simp [(h.lookup_eq_none_iff sym).mpr h0] at hq
  rw [Hse.lookup, Entry.codeword_some _ hne] at hq
  exact Option.some.inj hq

/-- `PUSH` in ACTIVE, on a hit (41_stream_commands.md R101). -/
theorem effect_push_hit (sym : Sym) (len : Len) (code : Code) (h : Hse Config.hse) (q : Bits) (ha : h.state = .active)
    (hq : h.lookup sym = some q) : effect (.push sym len code) h = h.queue (h.entry sym) := by
  have hne : (h.entry sym).len ≠ 0 := fun h0 => by simp [(h.lookup_eq_none_iff sym).mpr h0] at hq
  rw [effect_push, Hse.legalIn_same _ _ _ _ ha (by simp), Hse.pushActive, if_neg hne]

/-- `START` in IDLE (41_stream_commands.md R100). -/
theorem effect_start_idle (sym : Sym) (len : Len) (code : Code) (h : Hse Config.hse) (hi : h.state = .idle) :
    effect (.start sym len code) h = h.openStream := by
  rw [effect_start, Hse.legalIn_same _ _ _ _ hi (by simp)]

/-- `END` in ACTIVE (41_stream_commands.md R102). -/
theorem effect_endStream_active (sym : Sym) (len : Len) (code : Code) (h : Hse Config.hse) (ha : h.state = .active) :
    effect (.endStream sym len code) h = h.closeStream := by
  rw [effect_endStream, Hse.legalIn_same _ _ _ _ ha (by simp)]

/-- The Encoder's result depends on the table alone. -/
theorem Hse.encoderOutput_congr {h k : Hse c} (ht : h.table = k.table) (xs : List (BitVec c.symW)) :
    h.encoderOutput xs = k.encoderOutput xs := by
  induction xs with
  | nil => rfl
  | cons x xs ih => simp only [Hse.encoderOutput, ih, Hse.lookup_congr ht]

/-- The Encoder's result begins with the first symbol's codeword. -/
theorem Hse.encoderOutput_cons (h : Hse c) (x : BitVec c.symW) (xs : List (BitVec c.symW)) (bits : Bits)
    (hb : h.encoderOutput (x :: xs) = some bits) :
    ∃ q rest, h.lookup x = some q ∧ h.encoderOutput xs = some rest ∧ bits = q ++ rest := by
  rw [Hse.encoderOutput] at hb
  split at hb
  · next q rest hq hrest =>
    cases hb
    exact ⟨q, rest, hq, hrest, rfl⟩
  · cases hb

/-- The block after symbols have been counted and their bits have left, `SH` holding `sh`. -/
def Hse.streamed (symbols : Nat) (bits : Bits) (sh : BitVec c.lMax) (h : Hse c) : Hse c :=
  { h with
    symcnt := h.symcnt + BitVec.ofNat c.cntW symbols
    bitcnt := h.bitcnt + BitVec.ofNat c.cntW bits.length
    sh := sh
    out := h.out ++ bits }

@[simp] theorem Hse.streamed_state (n : Nat) (q : Bits) (sh : BitVec c.lMax) (h : Hse c) :
    (h.streamed n q sh).state = h.state := rfl
@[simp] theorem Hse.streamed_err (n : Nat) (q : Bits) (sh : BitVec c.lMax) (h : Hse c) :
    (h.streamed n q sh).err = h.err := rfl
@[simp] theorem Hse.streamed_symcnt (n : Nat) (q : Bits) (sh : BitVec c.lMax) (h : Hse c) :
    (h.streamed n q sh).symcnt = h.symcnt + BitVec.ofNat c.cntW n := rfl
@[simp] theorem Hse.streamed_bitcnt (n : Nat) (q : Bits) (sh : BitVec c.lMax) (h : Hse c) :
    (h.streamed n q sh).bitcnt = h.bitcnt + BitVec.ofNat c.cntW q.length := rfl
@[simp] theorem Hse.streamed_table (n : Nat) (q : Bits) (sh : BitVec c.lMax) (h : Hse c) :
    (h.streamed n q sh).table = h.table := rfl
@[simp] theorem Hse.streamed_shn (n : Nat) (q : Bits) (sh : BitVec c.lMax) (h : Hse c) :
    (h.streamed n q sh).shn = h.shn := rfl
@[simp] theorem Hse.streamed_out (n : Nat) (q : Bits) (sh : BitVec c.lMax) (h : Hse c) :
    (h.streamed n q sh).out = h.out ++ q := rfl
@[simp] theorem Hse.streamed_mark (n : Nat) (q : Bits) (sh : BitVec c.lMax) (h : Hse c) :
    (h.streamed n q sh).mark = h.mark := rfl

theorem Hse.streamed_zero (h : Hse c) : h.streamed 0 [] h.sh = h := by simp [Hse.streamed]

theorem Hse.streamed_streamed (m n : Nat) (p q : Bits) (v w : BitVec c.lMax) (h : Hse c) :
    (h.streamed m p v).streamed n q w = h.streamed (m + n) (p ++ q) w := by
  simp [Hse.streamed, BitVec.ofNat_add, BitVec.add_assoc]

/-- A queued codeword and its emit steps are one symbol streamed. -/
theorem Hse.drain_queue (h : Hse c) (hn : h.shn = 0) (sym : BitVec c.symW) (q : Bits) (hq : h.lookup sym = some q) :
    (h.queue (h.entry sym)).drain = h.streamed 1 q (h.entry sym).code := by
  have hlen : BitVec.ofNat c.cntW q.length = (h.entry sym).len.setWidth c.cntW := by
    rw [(Entry.codeword_length _ q hq).1, BitVec.ofNat_toNat]
  rw [Hse.drain_eq, Hse.pending_queue h sym q hq]
  simp [Hse.streamed, Hse.queue, Hse.count, hlen, hn]

/-- The words of `PUSH`es and `NOP`s, all of whose symbols have codewords, stream these codewords (41_stream_commands.md R104). -/
theorem runWords_pushes (items : List Instr) (xs : List Sym) (bits : Bits) (ws : List CmdWord) (h : Hse Config.hse)
    (ha : h.state = .active) (hn : h.shn = 0) (hp : pushedSymbols items = some xs) (hb : h.encoderOutput xs = some bits) :
    ∃ sh, Hse.runWords (items.map encode ++ ws) h = Hse.runWords ws (h.streamed xs.length bits sh) := by
  induction items generalizing xs bits h with
  | nil =>
    obtain rfl : [] = xs := Option.some.inj hp
    obtain rfl : [] = bits := Option.some.inj hb
    exact ⟨h.sh, by rw [List.length_nil, Hse.streamed_zero]; rfl⟩
  | cons i items ih =>
    rw [List.map_cons, List.cons_append, Hse.runWords_cons_of_shn_zero _ _ h hn, accept_encode]
    cases i with
    | nop => exact ih xs bits h ha hn hp hb
    | push sym len code =>
      obtain ⟨ys, hys, rfl⟩ := Option.map_eq_some_iff.mp hp
      obtain ⟨q, rest, hq, hrest, rfl⟩ := h.encoderOutput_cons sym ys bits hb
      obtain ⟨sh, hsh⟩ := ih ys rest (h.streamed 1 q (h.entry sym).code) ha hn hys
        ((Hse.encoderOutput_congr (Hse.streamed_table ..) ys).trans hrest)
      refine ⟨sh, ?_⟩
      rw [effect_push_hit sym len code h q ha hq, ← Hse.runWords_drain, h.drain_queue hn sym q hq, hsh,
        Hse.streamed_streamed, List.length_cons, Nat.add_comm]
    | clrt | load | start | endStream | abort => cases hp

/-- A whole stream on the transaction level, from IDLE: the block in IDLE again, the codewords transferred. -/
theorem runWords_stream (items : List Instr) (xs : List Sym) (bits : Bits) (h : Hse Config.hse) (a a' : Sym) (b b' : Len)
    (d d' : Code) (hi : h.state = .idle) (hn : h.shn = 0) (hp : pushedSymbols items = some xs)
    (hb : h.encoderOutput xs = some bits) :
    ∃ sh, Hse.runWords ((Instr.start a b d :: items ++ [Instr.endStream a' b' d']).map encode) h =
      (h.openStream.streamed xs.length bits sh).closeStream := by
  obtain ⟨sh, hsh⟩ := runWords_pushes items xs bits [encode (.endStream a' b' d')] h.openStream rfl hn hp
    ((Hse.encoderOutput_congr (Hse.openStream_table h) xs).trans hb)
  have hend := effect_endStream_active a' b' d' (h.openStream.streamed xs.length bits sh) rfl
  have hn' : (h.openStream.streamed xs.length bits sh).closeStream.shn = 0 := hn
  refine ⟨sh, ?_⟩
  rw [List.cons_append, List.map_cons, Hse.runWords_cons_of_shn_zero _ _ h hn, accept_encode, effect_start_idle a b d h hi,
    List.map_append, List.map_singleton, hsh, Hse.runWords_cons_of_shn_zero _ _ (h.openStream.streamed _ _ _) hn,
    accept_encode, hend, Hse.runWords, Hse.drain_of_shn_zero _ hn']

/-- R34 item 4: bits are pending in ACTIVE only, after every step. -/
theorem shn_zero_or_active_step (s t : State) (hs : s.hse.shn ≠ 0 → s.hse.state = .active) (h : step s = .next t) :
    t.hse.shn ≠ 0 → t.hse.state = .active := by
  rcases step_next_cases s t h with ⟨-, rfl⟩ | ⟨-, hn, rfl⟩ | ⟨w, rest, -, hn, -, -, -, -, hh⟩ | ⟨-, rfl⟩
  · simp
  · exact fun _ => hs hn
  · rw [hh]
    rcases Hse.accept_cases w s.hse with ha | ha | ha | ha | ha | ha | ha | ha | ha | ha | ha | ha | ha <;> simp_all
  · exact hs

/-- Settles O47: the outcome is the stream of the transaction level, and in IDLE no bit is pending. -/
theorem encoderContractOnSuccess : Obligations.EncoderContractOnSuccess := by
  intro k s t items xs bits a a' b b' d d' hf hi he hn hp hc hb hrun ht
  obtain ⟨sh, hsh⟩ := runWords_stream items xs bits s.hse a a' b b' d d' hi hn hp hb
  have hdrain : t.hse.drain = (s.hse.openStream.streamed xs.length bits sh).closeStream := by
    have hout := outcome_run k s t hf hrun
    rwa [State.outcome, State.outcome, ht, hc, hsh, Hse.runWords] at hout
  have hactive : t.hse.shn ≠ 0 → t.hse.state = .active :=
    run_keeps (fun u => u.hse.shn ≠ 0 → u.hse.state = .active) (fun u v hu huv => shn_zero_or_active_step u v hu huv) k s t
      (fun h0 => absurd hn h0) hrun
  have hidle : t.hse.state = .idle := by
    have := congrArg Hse.state hdrain
    rwa [Hse.drain_eq] at this
  have hshn : t.hse.shn = 0 := by
    by_contra h0
    rw [hactive h0] at hidle
    cases hidle
  rw [Hse.drain_of_shn_zero _ hshn] at hdrain
  simp [hdrain, Hse.sinceStart, he, hn]

end Machine

end Sys2Proof

/-! PROOFS. Single steps and readings: totality (O34), the lengths of `LOAD` (O14), the end of a stream (O41) and what the host
reads (O54). -/

namespace Sys2Proof.Machine

variable {c : Config}

/-- Settles O34: a command is an effect on the block, and every kind of edge has its next state. -/
theorem everyStepAnswersANextState : Obligations.EveryStepAnswersANextState :=
  ⟨fun i s => ⟨_, exec_eq i s⟩, step_answers⟩

/-! `LOAD` (40_table_commands.md R91). -/

/-- The two outcomes of `LOAD` in IDLE. -/
theorem Hse.loadEntry_idle (cmd : Cmd c) (h : Hse c) (hi : h.state = .idle) :
    h.loadEntry cmd =
      if lengthOk c cmd.len then h.setEntry cmd.sym (Cmd.entry cmd) else h.raise .badLength cmd := by
  rw [Hse.loadEntry, Hse.legalIn_same _ _ _ _ hi (by simp)]

/-- The codeword of a loaded entry is the one its operand denotes. -/
theorem Hse.lookup_setEntry_same (cmd : Cmd c) (h : Hse c) (hl : 1 ≤ cmd.len.toNat) :
    (h.setEntry cmd.sym (Cmd.entry cmd)).lookup cmd.sym = some (seqBits cmd.len.toNat cmd.code) := by
  have hne : cmd.len ≠ 0 := fun h0 => by simp [h0] at hl
  have hentry : Cmd.entry cmd ≠ Entry.empty c := fun h0 => hne (congrArg Entry.len h0)
  rw [Hse.lookup, Hse.entry_setEntry_same h cmd.sym _ hentry, Entry.codeword_some _ hne]
  exact congrArg some (seqBits_lowBits _ _ (Nat.le_refl _) _)

/-- The lookup of another symbol is the one it was. -/
theorem Hse.lookup_setEntry_other (h : Hse c) (sym r : BitVec c.symW) (e : Entry c) (hr : r ≠ sym) :
    (h.setEntry sym e).lookup r = h.lookup r := by
  rw [Hse.lookup, Hse.entry_setEntry_other h sym r e hr, Hse.lookup]

/-- Settles O14: the check of the length decides between the two outcomes. -/
theorem loadLengthsAtEveryConfiguration : Obligations.LoadLengthsAtEveryConfiguration := by
  intro c cmd h hi
  refine ⟨fun hbad => ?_, fun hlow hhigh => ?_⟩
  · have hno : ¬ lengthOk c cmd.len = true := fun hok => by
      have := (lengthOk_iff cmd.len).mp hok
      omega
    rw [Hse.loadEntry_idle cmd h hi, if_neg hno]
    rfl
  · rw [Hse.loadEntry_idle cmd h hi, if_pos ((lengthOk_iff cmd.len).mpr ⟨hlow, hhigh⟩)]
    exact ⟨Hse.lookup_setEntry_same cmd h hlow, hi, fun r hr => Hse.entry_setEntry_other h cmd.sym r _ hr⟩

/-! The end of a stream (00_scope.md R17). -/

/-- Everything an accepted word can do to a block in ACTIVE. -/
theorem Hse.accept_active_cases (w : BitVec c.cmdW) (h : Hse c) (ha : h.state = .active) :
    ((Cmd.ofWord w).op = 0x5 ∧ h.accept w = h.closeStream) ∨
    ((Cmd.ofWord w).op = 0x6 ∧ h.accept w = h.clearError) ∨
    ((Cmd.ofWord w).op ≠ 0x5 ∧ (Cmd.ofWord w).op ≠ 0x6 ∧
      ((h.accept w).state = .active ∨ ∃ cause, h.accept w = h.raise cause (Cmd.ofWord w))) := by
  have hno : ∀ {p : Phase} {P : Prop}, h.state = p → p ≠ .active → P := fun hs hp => absurd (hs ▸ ha) hp
  rcases accept_cases w h with ⟨hop, he⟩ | ⟨hs, -⟩ | ⟨hop, he⟩ | ⟨-, h7, he⟩ | ⟨-, hop, he⟩ | ⟨hs, -⟩ | ⟨hs, -⟩ |
    ⟨hs, -⟩ | ⟨hs, -⟩ | ⟨hs, -⟩ | ⟨-, hop, -, he⟩ | ⟨-, hop, -, he⟩ | ⟨-, hop, he⟩
  · exact .inr (.inr ⟨by simp [hop], by simp [hop], .inl (by rw [he, ha])⟩)
  · exact hno hs (by simp)
  · exact .inr (.inl ⟨hop, he⟩)
  · exact .inr (.inr ⟨by bv_omega, by bv_omega, .inr ⟨_, he⟩⟩)
  · exact .inr (.inr ⟨by bv_omega, by bv_omega, .inr ⟨_, he⟩⟩)
  · exact hno hs (by simp)
  · exact hno hs (by simp)
  · exact hno hs (by simp)
  · exact hno hs (by simp)
  · exact hno hs (by simp)
  · exact .inr (.inr ⟨by simp [hop], by simp [hop], .inr ⟨_, he⟩⟩)
  · exact .inr (.inr ⟨by simp [hop], by simp [hop], .inl (by rw [he]; exact ha)⟩)
  · exact .inl ⟨hop, he⟩

/-- The field `OP` of a word is its low four bits (30_encoding.md R71). -/
theorem ofWord_op (w : BitVec c.cmdW) : (Cmd.ofWord w : Cmd c).op = w.extractLsb' 0 4 := rfl

/-- The end that a step puts to a stream, from the step's event and the block after it. -/
theorem State.streamEnd_of_step (s t : State) (h : step s = .next t) :
    s.streamEnd = Hse.streamEnd s.event t.hse s.hse := by
  simp only [State.streamEnd, h]

/-- Settles O41: of the edges in ACTIVE a reset abandons, a transfer and a quiet edge leave the stream open, and an accepted word
completes it, abandons it, fails it or leaves it open. -/
theorem streamsEndAsDefined : Obligations.StreamsEndAsDefined := by
  intro s t hstep ha
  rw [s.streamEnd_of_step t hstep]
  rcases step_next_cases s t hstep with ⟨he, rfl⟩ | ⟨he, -, rfl⟩ | ⟨w, rest, he, -, -, -, -, -, hh⟩ | ⟨he, rfl⟩
  · simp [Hse.streamEnd, ha, he]
  · simp [Hse.streamEnd, ha, he]
  · have hcases := s.hse.accept_active_cases w ha
    simp only [ofWord_op, BitVec.ofNat_eq_ofNat] at hcases
    simp only [he, hh]
    rcases hcases with ⟨h5, hacc⟩ | ⟨h6, hacc⟩ | ⟨h5, h6, hacc | ⟨cause, hacc⟩⟩
    · simp [Hse.streamEnd, ofWord_op, ha, h5, hacc, Hse.sinceStart, eq_comm]
    · simp [Hse.streamEnd, ofWord_op, ha, h6, hacc]
    · simp [Hse.streamEnd, ha, h5, h6, hacc]
    · simp [Hse.streamEnd, ha, h5, h6, hacc]
  · simp [Hse.streamEnd, ha, he]

/-! What the host reads (43_host_side_pipeline.md R143 step 6). -/

theorem readResult_idle_held (table : CodeTable) (output : Bits) (h : Hse c) (hi : h.state = .idle) (he : h.err = .none) :
    readResult table (some output) h.statusPorts = some (.encoded table output) := by
  simp [readResult, Hse.statusPorts, hi, he]

theorem readResult_idle_none (table : CodeTable) (h : Hse c) (hi : h.state = .idle) (he : h.err = .none) :
    readResult table none h.statusPorts = some .noResult := by
  simp [readResult, Hse.statusPorts, hi, he]

theorem readResult_error (table : CodeTable) (held : Option Bits) (h : Hse c) (hs : h.state = .error) :
    readResult table held h.statusPorts = some (.fatal h.err.code) := by
  simp [readResult, Hse.statusPorts, hs, Phase.code]

theorem readResult_active (table : CodeTable) (held : Option Bits) (h : Hse c) (ha : h.state = .active) :
    readResult table held h.statusPorts = none := by
  simp [readResult, Hse.statusPorts, ha, Phase.code]

/-- A cause the block can have recorded is one of codes 2 to 5 (10_state.md R25, 60_exceptions.md R151). -/
theorem Cause.code_range (e : Cause) (hnone : e ≠ .none) (hinput : e ≠ .invalidInput) :
    2 ≤ e.code.toNat ∧ e.code.toNat ≤ 5 := by
  cases e with
  | none => exact absurd rfl hnone
  | invalidInput => exact absurd rfl hinput
  | missingCode | illegalOp | badSequence | badLength => decide

/-- Settles O54: the invariant ties `ERR` to `STATE`, so that each phase has its one reading. -/
theorem hostReadsTheOutcome : Obligations.HostReadsTheOutcome := by
  intro c h table held rst hinv
  obtain ⟨⟨hinput, hstate, -⟩, -⟩ := hinv
  have hnone : h.state = .idle → h.err = .none := fun hi => by
    by_contra hn
    simp [hi] at hstate
    exact hn hstate
  refine ⟨?_, ?_, ?_, readResult_active table held h⟩
  · rintro hi bits rfl
    exact readResult_idle_held table bits h hi (hnone hi)
  · rintro hi rfl
    exact readResult_idle_none table h hi (hnone hi)
  · intro hs
    obtain ⟨hlow, hhigh⟩ := h.err.code_range (hstate.mp hs) hinput
    exact ⟨h.err.code, readResult_error table held h hs, hlow, hhigh, rfl⟩

end Sys2Proof.Machine

/-! PROOFS. The result the host holds along a run (O56): a run's last step, and what a step does to a result held. -/

namespace Sys2Proof.Machine

/-- A run of one more step is a step after the run. -/
theorem run_succ_last (k : Nat) (s t : State) :
    Host.Core.run Sys2Proof.core (k + 1) s = .next t ↔
      ∃ u, Host.Core.run Sys2Proof.core k s = .next u ∧ step u = .next t := by
  induction k generalizing s with
  | zero =>
    obtain ⟨v, hv⟩ := step_answers s
    rw [run_succ 0 s v hv]
    exact ⟨fun h => ⟨s, rfl, hv.trans h⟩, fun ⟨_, hu, h⟩ => by cases hu; exact hv.symm.trans h⟩
  | succ k ih =>
    obtain ⟨v, hv⟩ := step_answers s
    rw [run_succ (k + 1) s v hv, run_succ k s v hv]
    exact ih v

/-- The result held after one more step is what that step makes of the one held before it. -/
theorem latestResult_succ_last (k : Nat) (held : Option Bits) (s u t : State)
    (hu : Host.Core.run Sys2Proof.core k s = .next u) (ht : step u = .next t) :
    latestResult (k + 1) held s =
      resultAfter (Hse.streamEnd u.event t.hse u.hse) t.hse.state (latestResult k held s) := by
  induction k generalizing s held with
  | zero =>
    cases hu
    rw [latestResult_succ 0 held _ t ht, latestResult_zero, latestResult_zero]
  | succ k ih =>
    obtain ⟨v, hv⟩ := step_answers s
    rw [run_succ k s v hv] at hu
    rw [latestResult_succ (k + 1) held s v hv, latestResult_succ k held s v hv]
    exact ih _ v hu

/-- Some edge among the first `k` completed a stream with the result `r`, and the block has been in IDLE after every edge
since. -/
def State.completedBefore (k : Nat) (r : Bits) (s : State) : Prop :=
  ∃ j u, j < k ∧ Host.Core.run Sys2Proof.core j s = .next u ∧ u.streamEnd = some (.completed r) ∧
    ∀ i v, j < i → i ≤ k → Host.Core.run Sys2Proof.core i s = .next v → v.hse.state = .idle

theorem not_completedBefore_zero (r : Bits) (s : State) : ¬ s.completedBefore 0 r := fun ⟨_, _, hj, _⟩ =>
  absurd hj (Nat.not_lt_zero _)

theorem idle_of_completedBefore (k : Nat) (r : Bits) (s u : State) (hu : Host.Core.run Sys2Proof.core k s = .next u)
    (h : s.completedBefore k r) : u.hse.state = .idle := by
  obtain ⟨j, -, hj, -, -, hidle⟩ := h
  exact hidle k u hj (Nat.le_refl k) hu

/-- The edge after `k` edges completed a stream with `r`, or an earlier edge did, and the block is in IDLE after both. -/
theorem completedBefore_succ (k : Nat) (r : Bits) (s u t : State) (hu : Host.Core.run Sys2Proof.core k s = .next u)
    (ht : step u = .next t) :
    s.completedBefore (k + 1) r ↔
      t.hse.state = .idle ∧ (u.streamEnd = some (.completed r) ∨ s.completedBefore k r) := by
  have hrun : Host.Core.run Sys2Proof.core (k + 1) s = .next t := (run_succ_last k s t).mpr ⟨u, hu, ht⟩
  constructor
  · rintro ⟨j, v, hj, hv, hend, hidle⟩
    refine ⟨hidle (k + 1) t hj (Nat.le_refl _) hrun, ?_⟩
    rcases Nat.lt_succ_iff_lt_or_eq.mp hj with hlt | rfl
    · exact .inr ⟨j, v, hlt, hv, hend, fun i w hi hik => hidle i w hi (Nat.le_succ_of_le hik)⟩
    · rw [hu] at hv
      cases hv
      exact .inl hend
  · rintro ⟨hidle, hend | ⟨j, v, hj, hv, hend, hsince⟩⟩
    · refine ⟨k, u, Nat.lt_succ_self k, hu, hend, fun i w hi hik hw => ?_⟩
      obtain rfl : i = k + 1 := by omega
      rw [hrun] at hw
      cases hw
      exact hidle
    · refine ⟨j, v, Nat.lt_succ_of_lt hj, hv, hend, fun i w hi hik hw => ?_⟩
      rcases Nat.le_succ_iff.mp hik with hle | rfl
      · exact hsince i w hi hle hw
      · rw [hrun] at hw
        cases hw
        exact hidle

/-- R17, R164: the result held after a run is the one of a stream completed on it, the block in IDLE ever since. -/
theorem latestResult_eq_some_iff (k : Nat) (s : State) (r : Bits) :
    latestResult k none s = some r ↔ s.completedBefore k r := by
  induction k with
  | zero => simp [not_completedBefore_zero]
  | succ k ih =>
    obtain ⟨(u : State), hu⟩ := run_answers k s
    obtain ⟨t, ht⟩ := step_answers u
    rw [latestResult_succ_last k none s u t hu ht, completedBefore_succ k r s u t hu ht, u.streamEnd_of_step t ht, ← ih]
    have hidleAt : latestResult k none s = some r → u.hse.state = .idle := fun h =>
      idle_of_completedBefore k r s u hu (ih.mp h)
    rcases resultAfter_cases u t (latestResult k none s) ht with
      ⟨hactive, -, hclose, hend, hres⟩ | ⟨-, hidle, hend, hres⟩ | ⟨hend, hopen, hres⟩
    · have hnone : latestResult k none s ≠ some r := fun h => by simp [hidleAt h] at hactive
      have hidle : t.hse.state = .idle := by rw [hclose]; rfl
      rw [hres, hend]
      simp [hidle, hnone]
    · rw [hres, hend]
      simp [hidle]
    · rw [hres]
      have hno : ¬ (t.hse.state = .idle ∧ latestResult k none s = some r) := fun ⟨hidle, h⟩ => by
        have hactive := hopen hidle
        rw [hidleAt h] at hactive
        cases hactive
      simpa [hend r] using hno

/-- A word that leaves a block in IDLE there keeps the bits since `START` and `SHN`. -/
theorem Hse.accept_idle_keeps {c : Config} (w : BitVec c.cmdW) (h : Hse c) (hi : h.state = .idle)
    (hs : (h.accept w).state = .idle) : (h.accept w).sinceStart = h.sinceStart ∧ (h.accept w).shn = h.shn := by
  rcases accept_cases w h with ha | ha | ha | ha | ha | ha | ha | ha | ha | ha | ha | ha | ha <;> simp_all [Hse.sinceStart]

/-- What holds of a result held, as long as no reset comes: it is the bits transferred since `START`, the block is in IDLE and no
bit is pending. -/
def State.holdsSinceStart (s : State) (held : Option Bits) : Prop :=
  ∀ r, held = some r → r = s.hse.sinceStart ∧ s.hse.state = .idle ∧ s.hse.shn = 0

theorem holdsSinceStart_step (s t : State) (held : Option Bits) (hr : s.now.rst = false) (hs : s.holdsSinceStart held)
    (ht : step s = .next t) :
    t.holdsSinceStart (resultAfter (Hse.streamEnd s.event t.hse s.hse) t.hse.state held) := by
  intro r hres
  rcases resultAfter_cases s t held ht with ⟨-, hn, hclose, -, hc⟩ | ⟨-, hidle, -, hc⟩ | ⟨-, -, hc⟩
  · rw [hc] at hres
    cases hres
    rw [hclose]
    exact ⟨rfl, rfl, hn⟩
  · rw [hc] at hres
    obtain ⟨hr', hi, hn⟩ := hs r hres
    rcases step_next_cases s t ht with ⟨he, -⟩ | ⟨-, hn', -⟩ | ⟨w, rest, -, -, -, -, -, -, hh⟩ | ⟨-, rfl⟩
    · simp [(State.event_reset_iff s).mp he] at hr
    · exact absurd hn hn'
    · obtain ⟨hsince, hshn⟩ := s.hse.accept_idle_keeps w hi (hh ▸ hidle)
      rw [hh]
      exact ⟨hr'.trans hsince.symm, hh ▸ hidle, hshn.trans hn⟩
    · exact ⟨hr', hi, hn⟩
  · rw [hc] at hres
    cases hres

/-- Settles O56: the equivalence by induction on the number of edges, the reading of the bits as an invariant of reset-free
runs. -/
theorem hostHoldsOnlyCompletedResults : Obligations.HostHoldsOnlyCompletedResults := by
  intro k s t r hrun
  refine ⟨latestResult_eq_some_iff k s r, fun hf hres => ?_⟩
  obtain ⟨-, hholds⟩ := latestResult_keeps (fun u held => u.resetFree ∧ u.holdsSinceStart held)
    (fun u v held ⟨hu, hh⟩ huv => ⟨u.resetFree_step v hu huv, holdsSinceStart_step u v held (u.resetFree_now hu) hh huv⟩)
    k s t none ⟨hf, fun _ h => by cases h⟩ hrun
  exact (hholds r hres).1

end Sys2Proof.Machine

/-! PROOFS. The host's code table (O51): every stage keeps the symbols, each once, and a tree is less deep than it has leaves. -/

namespace Sys2Proof.Machine

/-! FrequencyCounter (43_host_side_pipeline.md R131, R132). -/

/-- The symbols after one more occurrence: the new one comes last, a known one changes nothing. -/
theorem addOccurrence_symbols (x : Sym) (t : FrequencyTable) :
    (addOccurrence x t).map Prod.fst = if x ∈ t.map Prod.fst then t.map Prod.fst else t.map Prod.fst ++ [x] := by
  induction t with
  | nil => rfl
  | cons e t ih =>
    by_cases hx : x = e.1
    · simp [addOccurrence, hx]
    · by_cases hm : x ∈ t.map Prod.fst <;> simp_all [addOccurrence]

theorem addOccurrence_nodup (x : Sym) (t : FrequencyTable) (ht : (t.map Prod.fst).Nodup) :
    ((addOccurrence x t).map Prod.fst).Nodup := by
  rw [addOccurrence_symbols]
  split
  · exact ht
  · next hx => exact List.nodup_append.mpr ⟨ht, List.nodup_singleton x, fun a ha b hb => by
      rw [List.mem_singleton.mp hb]
      exact fun h => hx (h ▸ ha)⟩

/-- R132: no symbol has two entries. -/
theorem countFrequencies_nodup (input : List Sym) : ((countFrequencies input).map Prod.fst).Nodup := by
  have hfold : ∀ t : FrequencyTable, (t.map Prod.fst).Nodup →
      ((input.foldl (fun t x => addOccurrence x t) t).map Prod.fst).Nodup := by
    induction input with
    | nil => exact fun t ht => ht
    | cons x xs ih => exact fun t ht => ih _ (addOccurrence_nodup x t ht)
  exact hfold [] List.nodup_nil

/-! HuffmanTreeBuilder (43_host_side_pipeline.md R134 to R138). -/

/-- The symbols at the leaves, from left to right. -/
def TreeNode.leaves : TreeNode → List Sym
  | .leaf s _ => [s]
  | .node _ l r => l.leaves ++ r.leaves

/-- The symbols at the leaves of a priority collection. -/
def collectionLeaves (qs : List QueueNode) : List Sym := qs.flatMap fun q => q.tree.leaves

theorem TreeNode.leaves_length_pos (t : TreeNode) : 0 < t.leaves.length := by
  induction t with
  | leaf => exact Nat.one_pos
  | node f l r ihl ihr => rw [TreeNode.leaves, List.length_append]; omega

/-- Extracting takes one node out of the collection and keeps the others. -/
theorem extractMin_perm (ch : BuildChoices) (q : QueueNode) (rest : List QueueNode) :
    ((extractMin ch q rest).1 :: (extractMin ch q rest).2).Perm (q :: rest) := by
  induction rest generalizing q with
  | nil => exact .refl _
  | cons x rest ih =>
    rw [extractMin]
    split
    · exact (List.Perm.swap ..).trans (.cons q (ih x))
    · exact (List.Perm.swap ..).trans ((List.Perm.cons x (ih q)).trans (.swap ..))

theorem extractMin_length (ch : BuildChoices) (q : QueueNode) (rest : List QueueNode) :
    (extractMin ch q rest).2.length = rest.length := by
  simpa using (extractMin_perm ch q rest).length_eq

/-- One merge: the two extracted nodes become the branches of the new one. -/
theorem mergeLoop_succ (ch : BuildChoices) (n next : Nat) (q r : QueueNode) (rest others : List QueueNode)
    (h : (extractMin ch q rest).2 = r :: others) :
    mergeLoop ch (n + 1) next q rest =
      mergeLoop ch n (next + 1) ⟨next, ch.join (extractMin ch q rest).1.tree (extractMin ch r others).1.tree⟩
        (extractMin ch r others).2 := by
  rw [mergeLoop]
  split
  · next he => rw [he] at h; cases h
  · next he => rw [he] at h ⊢; cases h; rfl

theorem BuildChoices.join_leaves (ch : BuildChoices) (a b : TreeNode) :
    (ch.join a b).leaves.Perm (a.leaves ++ b.leaves) := by
  rw [BuildChoices.join]
  split
  · exact .refl _
  · exact List.perm_append_comm

/-- The merge loop keeps the symbols at the leaves. -/
theorem mergeLoop_leaves (ch : BuildChoices) (n next : Nat) (q : QueueNode) (rest : List QueueNode) (hn : rest.length = n) :
    (mergeLoop ch n next q rest).leaves.Perm (collectionLeaves (q :: rest)) := by
  induction n generalizing next q rest with
  | zero =>
    obtain rfl := List.length_eq_zero_iff.mp hn
    simp [mergeLoop, collectionLeaves]
  | succ n ih =>
    obtain ⟨r, others, hex⟩ := List.exists_cons_of_length_eq_add_one ((extractMin_length ch q rest).trans hn)
    have hothers : others.length = n := by
      have := extractMin_length ch q rest
      rw [hex, List.length_cons] at this
      omega
    have hfirst : (collectionLeaves ((extractMin ch q rest).1 :: r :: others)).Perm (collectionLeaves (q :: rest)) :=
      (hex ▸ extractMin_perm ch q rest).flatMap_right _
    have hsecond := (extractMin_perm ch r others).flatMap_right fun q => q.tree.leaves
    rw [mergeLoop_succ ch n next q r rest others hex]
    refine (ih (next + 1) _ _ ((extractMin_length ch r others).trans hothers)).trans (.trans ?_ hfirst)
    simp only [collectionLeaves, List.flatMap_cons] at hsecond ⊢
    refine ((ch.join_leaves _ _).append_right _).trans ?_
    rw [List.append_assoc]
    exact hsecond.append_left _

theorem leafNodes_leaves (next : Nat) (t : FrequencyTable) : collectionLeaves (leafNodes next t) = t.map Prod.fst := by
  induction t generalizing next with
  | nil => rfl
  | cons e t ih => rw [leafNodes, collectionLeaves, List.flatMap_cons]; exact congrArg (e.1 :: ·) (ih (next + 1))

/-- R138: the tree has one leaf for each entry of the FrequencyTable. -/
theorem buildTree_leaves (ch : BuildChoices) (t : FrequencyTable) (root : TreeNode) (h : buildTree ch t = .ok root) :
    root.leaves.Perm (t.map Prod.fst) := by
  rw [← leafNodes_leaves 0 t]
  rw [buildTree] at h
  split at h
  · cases h
  · next q rest hl =>
    cases h
    rw [hl]
    exact mergeLoop_leaves ch rest.length t.length q rest rfl

/-! CodeTableBuilder (43_host_side_pipeline.md R139, R140). -/

theorem TreeNode.codewords_symbols (ch : BuildChoices) (t : TreeNode) (acc : Bits) :
    (t.codewords ch acc).map Prod.fst = t.leaves := by
  induction t generalizing acc with
  | leaf s n => rfl
  | node f l r ihl ihr => rw [TreeNode.codewords, List.map_append, ihl, ihr, TreeNode.leaves]

/-- A leaf lies less deep than its tree has leaves. -/
theorem TreeNode.codewords_length (ch : BuildChoices) (t : TreeNode) (acc : Bits) :
    ∀ e ∈ t.codewords ch acc, e.2.length < acc.length + t.leaves.length := by
  induction t generalizing acc with
  | leaf s n => simp [TreeNode.codewords, TreeNode.leaves]
  | node f l r ihl ihr =>
    intro e he
    have hl := l.leaves_length_pos
    have hr := r.leaves_length_pos
    rw [TreeNode.leaves, List.length_append]
    rcases List.mem_append.mp he with he | he
    · have := ihl (acc ++ [ch.leftBit]) e he
      rw [List.length_append, List.length_singleton] at this
      omega
    · have := ihr (acc ++ [!ch.leftBit]) e he
      rw [List.length_append, List.length_singleton] at this
      omega

theorem buildCodeTable_symbols (ch : BuildChoices) (t : TreeNode) : (buildCodeTable ch t).map Prod.fst = t.leaves := by
  cases t with
  | leaf s n => rfl
  | node f l r => exact TreeNode.codewords_symbols ch (.node f l r) []

/-- R140: a lone leaf has one bit, and any other leaf less than there are leaves. -/
theorem buildCodeTable_length (ch : BuildChoices) (t : TreeNode) :
    ∀ e ∈ buildCodeTable ch t, e.2.length ≤ max 1 (t.leaves.length - 1) := by
  cases t with
  | leaf s n => simp [buildCodeTable]
  | node f l r =>
    intro e he
    have := TreeNode.codewords_length ch (.node f l r) [] e he
    rw [List.length_nil] at this
    omega

/-! The three stages together. -/

/-- A code table is the one built from the tree of the input's symbols. -/
theorem codeTableOf_ok (ch : BuildChoices) (input : List Sym) (t : CodeTable) (h : codeTableOf ch input = .ok t) :
    ∃ root, t = buildCodeTable ch root ∧ root.leaves.Perm ((countFrequencies input).map Prod.fst) := by
  rw [codeTableOf] at h
  split at h
  · cases h
  · next root hroot =>
    cases h
    exact ⟨root, rfl, (buildTree_leaves ch _ root hroot).trans ((ch.freqOrder_perm _).map _)⟩

/-- The code table lists the input's distinct symbols, each once. -/
theorem codeTableOf_symbols (ch : BuildChoices) (input : List Sym) (t : CodeTable) (h : codeTableOf ch input = .ok t) :
    (t.map Prod.fst).Perm ((countFrequencies input).map Prod.fst) := by
  obtain ⟨root, rfl, hperm⟩ := codeTableOf_ok ch input t h
  rwa [buildCodeTable_symbols]

theorem codeTableOf_nodup (ch : BuildChoices) (input : List Sym) (t : CodeTable) (h : codeTableOf ch input = .ok t) :
    (t.map Prod.fst).Nodup :=
  (codeTableOf_symbols ch input t h).nodup_iff.mpr (countFrequencies_nodup input)

theorem codeTableOf_codeword_length (ch : BuildChoices) (input : List Sym) (t : CodeTable) (h : codeTableOf ch input = .ok t) :
    ∀ e ∈ t, e.2.length ≤ max 1 (t.length - 1) := by
  obtain ⟨root, rfl, -⟩ := codeTableOf_ok ch input t h
  have hlen : (buildCodeTable ch root).length = root.leaves.length := by
    rw [← buildCodeTable_symbols ch root, List.length_map]
  rw [hlen]
  exact buildCodeTable_length ch root

/-- Distinct symbols are at most as many as the table has addresses (10_state.md R29). -/
theorem symbols_length_le (xs : List Sym) (h : xs.Nodup) : xs.length ≤ 256 := by
  simpa using (h.map BitVec.toFin_injective).length_le_card

/-- R7: every codeword is as short as the default `L_MAX` asks, whichever input it comes from. -/
theorem codeTableOf_codeword_fits (ch : BuildChoices) (input : List Sym) (t : CodeTable) (h : codeTableOf ch input = .ok t) :
    t.length ≤ 256 ∧ ∀ e ∈ t, e.2.length ≤ 255 := by
  have h256 : t.length ≤ 256 := by simpa using symbols_length_le _ (codeTableOf_nodup ch input t h)
  refine ⟨h256, fun e he => ?_⟩
  have := codeTableOf_codeword_length ch input t h e he
  omega

/-- Settles O51: the leaves are the distinct symbols, and the codeword of a leaf is as long as the leaf is deep. -/
theorem codewordsFitTheTable : Obligations.CodewordsFitTheTable := by
  intro ch input t h
  have hlen : t.length = (countFrequencies input).length := by simpa using (codeTableOf_symbols ch input t h).length_eq
  obtain ⟨h256, hfits⟩ := codeTableOf_codeword_fits ch input t h
  exact ⟨hlen, h256, fun e he => ⟨codeTableOf_codeword_length ch input t h e he, hfits e he⟩⟩

end Sys2Proof.Machine

/-! PROOFS. Only whole results are answered (O57). Whatever resets fall, what the block and the host hold is tied to the commands of the call that
are still to be accepted: the stages of a call, kept by every step. -/

namespace Sys2Proof.Machine

/-! The host's table as a function (43_host_side_pipeline.md R130). -/

theorem CodeTable.code?_of_mem (t : CodeTable) (hn : (t.map Prod.fst).Nodup) (e : Sym × Bits) (he : e ∈ t) :
    t.code? e.1 = some e.2 := by
  induction t with
  | nil => cases he
  | cons a t ih =>
    rw [List.map_cons, List.nodup_cons] at hn
    rcases List.mem_cons.mp he with rfl | he
    · simp [CodeTable.code?]
    · have hne : e.1 ≠ a.1 := fun h => hn.1 (h ▸ List.mem_map_of_mem he)
      rw [CodeTable.code?, if_neg hne]
      exact ih hn.2 he

/-- A table that loads as it stands: each symbol's first entry is its only one, and no codeword is too long for `LEN`. -/
def CodeTable.loadable (t : CodeTable) : Prop := ∀ e ∈ t, t.code? e.1 = some e.2 ∧ e.2.length ≤ 255

theorem codeTableOf_loadable (ch : BuildChoices) (input : List Sym) (t : CodeTable) (h : codeTableOf ch input = .ok t) :
    t.loadable := by
  obtain ⟨-, hfits⟩ := codeTableOf_codeword_fits ch input t h
  exact fun e he => ⟨t.code?_of_mem (codeTableOf_nodup ch input t h) e he, hfits e he⟩

/-- The Encoder's output grows by the codeword of the next symbol. -/
theorem CodeTable.encode_concat (t : CodeTable) (xs : List Sym) (x : Sym) (bits q : Bits) (hb : t.encode xs = .ok bits)
    (hq : t.code? x = some q) : t.encode (xs ++ [x]) = .ok (bits ++ q) := by
  induction xs generalizing bits with
  | nil =>
    cases hb
    simp [CodeTable.encode, hq]
  | cons y ys ih =>
    rw [CodeTable.encode] at hb
    split at hb
    · cases hb
    · next p hp =>
      split at hb
      · cases hb
      · next rest hrest =>
        cases hb
        simp [CodeTable.encode, hp, ih rest hrest]

/-! The block against the host's table. -/

/-- Every codeword the block would find is the host's. -/
def Hse.soundFor (table : CodeTable) (h : Hse Config.hse) : Prop := ∀ x q, h.lookup x = some q → table.code? x = some q

theorem Hse.soundFor_of_empty (table : CodeTable) (h : Hse Config.hse) (ht : h.table = []) : h.soundFor table := by
  intro x q hq
  rw [Hse.lookup_congr (k := h.emptyTable) ht x, Hse.lookup, Hse.entry_emptyTable, Entry.codeword_empty] at hq
  cases hq

theorem Hse.soundFor_congr (table : CodeTable) (h k : Hse Config.hse) (ht : k.table = h.table) (hs : h.soundFor table) :
    k.soundFor table :=
  fun x q hq => hs x q ((Hse.lookup_congr ht x).symm.trans hq)

/-- Between `CLRT` and `START`: an error is recorded, or the table holds nothing but the host's codewords. -/
def Hse.loads (table : CodeTable) (h : Hse Config.hse) : Prop :=
  h.state = .error ∨ (h.state = .idle ∧ h.soundFor table)

/-- After `START`: the bits transferred and pending since then are the Encoder's output for the symbols pushed, and the table
holds nothing but the host's codewords. -/
def Hse.streams (table : CodeTable) (pushed : List Sym) (h : Hse Config.hse) : Prop :=
  h.soundFor table ∧ h.mark ≤ h.out.length ∧ table.encode pushed = .ok (h.sinceStart ++ h.pending)

/-! What each command of the call does to it. -/

theorem loads_clrt (table : CodeTable) (h : Hse Config.hse) : (effect (.clrt 0 0 0) h).loads table := by
  rw [effect_clrt]
  rcases h.legalIn_cases .idle ⟨0x1, 0, 0, 0⟩ Hse.emptyTable with ⟨hs, he⟩ | ⟨-, hs, he⟩ | ⟨-, -, he⟩
  · exact .inl (by rw [he, hs])
  · exact .inr (by rw [he]; exact ⟨hs, Hse.soundFor_of_empty table _ rfl⟩)
  · exact .inl (by rw [he]; rfl)

/-- The field `LEN` of a loaded codeword is its length (30_encoding.md R82). -/
theorem loadBits_len (sym : Sym) (bits : Bits) (h : bits.length ≤ 255) : (loadBits sym bits).toCmd.len.toNat = bits.length :=
  (BitVec.toNat_ofNat ..).trans (Nat.mod_eq_of_lt (Nat.lt_succ_of_le h))

/-- A loaded codeword is looked up as it stands in the host's table. -/
theorem lookup_load (sym : Sym) (bits : Bits) (h : Hse Config.hse) (hlow : 1 ≤ bits.length) (hhigh : bits.length ≤ 255) :
    (h.setEntry sym (Cmd.entry (loadBits sym bits).toCmd)).lookup sym = some bits := by
  have hlen := loadBits_len sym bits hhigh
  have hcode : (loadBits sym bits).toCmd.code = BitVec.ofNat Config.hse.lMax bits.val := rfl
  refine (Hse.lookup_setEntry_same (loadBits sym bits).toCmd h (hlow.trans_eq hlen.symm)).trans ?_
  rw [hlen, hcode, seqBits_val bits hhigh]

theorem loads_load (table : CodeTable) (sym : Sym) (bits : Bits) (h : Hse Config.hse) (hcode : table.code? sym = some bits)
    (hlen : bits.length ≤ 255) (hl : h.loads table) : (effect (loadBits sym bits) h).loads table := by
  rcases hl with hs | ⟨hs, hsound⟩
  · exact .inl ((congrArg Hse.state (Hse.legalIn_error _ _ _ h hs)).trans hs)
  · have heff : effect (loadBits sym bits) h = h.loadEntry (loadBits sym bits).toCmd := rfl
    rw [heff, Hse.loadEntry_idle _ h hs]
    split
    · next hok =>
      refine .inr ⟨hs, fun x q hq => ?_⟩
      have hpos : 1 ≤ bits.length := loadBits_len sym bits hlen ▸ ((lengthOk_iff _).mp hok).1
      by_cases hx : x = sym
      · subst hx
        rw [← hq, hcode]
        exact (lookup_load x bits h hpos hlen).symm
      · exact hsound x q ((Hse.lookup_setEntry_other h sym x _ hx).symm.trans hq)
    · exact .inl rfl

theorem start_of_loads (table : CodeTable) (h : Hse Config.hse) (hn : h.shn = 0) (hl : h.loads table) :
    (effect (.start 0 0 0) h).state ≠ .idle ∧
      ((effect (.start 0 0 0) h).state = .active → (effect (.start 0 0 0) h).streams table []) := by
  rcases hl with hs | ⟨hs, hsound⟩
  · rw [effect_start, Hse.legalIn_error _ _ _ h hs]
    simp [hs]
  · rw [effect_start_idle _ _ _ h hs]
    have hpending : h.openStream.pending = [] := by simp [Hse.pending, hn]
    exact ⟨by simp, fun _ => ⟨h.soundFor_congr table _ rfl hsound, Nat.le_refl _, by
      simp [CodeTable.encode, Hse.sinceStart, hpending]⟩⟩

/-- Everything `PUSH` can do: leave ERROR as it is, enter ERROR, or queue the codeword that the lookup finds. -/
theorem effect_push_cases (sym : Sym) (len : Len) (code : Code) (h : Hse Config.hse) :
    (effect (.push sym len code) h).state = .error ∨
      ∃ q, h.state = .active ∧ h.lookup sym = some q ∧ effect (.push sym len code) h = h.queue (h.entry sym) := by
  rw [effect_push]
  rcases h.legalIn_cases .active ⟨0x4, sym, len, code⟩ (Hse.pushActive ⟨0x4, sym, len, code⟩) with
    ⟨hs, he⟩ | ⟨-, hs, he⟩ | ⟨-, -, he⟩
  · exact .inl (by rw [he, hs])
  · cases hq : h.lookup sym with
    | none => exact .inl (by rw [he, Hse.pushActive, if_pos ((h.lookup_eq_none_iff sym).mp hq)]; rfl)
    | some q => exact .inr ⟨q, hs, rfl, effect_push_hit sym len code h q hs hq⟩
  · exact .inl (by rw [he]; rfl)

theorem push_of_streams (table : CodeTable) (pushed : List Sym) (x : Sym) (h : Hse Config.hse) (hn : h.shn = 0)
    (hs : h.state = .active → h.streams table pushed) :
    (effect (.push x 0 0) h).state ≠ .idle ∧
      ((effect (.push x 0 0) h).state = .active → (effect (.push x 0 0) h).streams table (pushed ++ [x])) := by
  rcases effect_push_cases x 0 0 h with he | ⟨q, ha, hq, he⟩
  · rw [he]
    exact ⟨by simp, fun ha => by cases ha⟩
  · obtain ⟨hsound, hmark, henc⟩ := hs ha
    have hpending : h.pending = [] := by simp [Hse.pending, hn]
    rw [hpending, List.append_nil] at henc
    rw [he]
    refine ⟨by simp [ha], fun _ => ⟨h.soundFor_congr table _ rfl hsound, hmark, ?_⟩⟩
    rw [Hse.pending_queue h x q hq]
    exact table.encode_concat pushed x _ q henc (hsound x q hq)

/-! Edges that accept no command. -/

/-- A bit that moves is pending before and transferred after. -/
theorem streams_emit (table : CodeTable) (pushed : List Sym) (h : Hse Config.hse) (hn : h.shn ≠ 0)
    (hs : h.streams table pushed) : h.emit.streams table pushed := by
  obtain ⟨hsound, hmark, henc⟩ := hs
  have hsince : h.emit.sinceStart = h.sinceStart ++ [h.nextBit] := List.drop_append_of_le_length hmark
  refine ⟨h.soundFor_congr table _ rfl hsound, by rw [Hse.emit_mark, Hse.emit_out, List.length_append]; omega, ?_⟩
  rw [henc, hsince, Hse.pending_emit h hn, List.append_assoc, List.singleton_append]

/-- An edge that accepts no command takes no command from the host, and resets the block, moves a bit or changes nothing. -/
theorem step_of_not_accept (s t : State) (ht : step s = .next t) (hno : ∀ w, s.event ≠ .accept w) :
    t.cmds = s.cmds ∧
      (t.hse = Hse.reset Config.hse ∨ (s.hse.shn ≠ 0 ∧ t.hse = s.hse.emit) ∨ t.hse = s.hse) := by
  rcases step_next_cases s t ht with ⟨-, rfl⟩ | ⟨-, hn, rfl⟩ | ⟨w, rest, he, -⟩ | ⟨-, rfl⟩
  · exact ⟨rfl, .inl rfl⟩
  · exact ⟨rfl, .inr (.inl ⟨hn, rfl⟩)⟩
  · exact absurd he (hno w)
  · exact ⟨rfl, .inr (.inr rfl)⟩

/-- Only an accepted command completes a stream. -/
theorem resultAfter_of_not_accept (s t : State) (held : Option Bits) (ht : step s = .next t)
    (hno : ∀ w, s.event ≠ .accept w) :
    resultAfter (Hse.streamEnd s.event t.hse s.hse) t.hse.state held = held ∨
      resultAfter (Hse.streamEnd s.event t.hse s.hse) t.hse.state held = none := by
  rcases resultAfter_cases s t held ht with ⟨-, -, -, hend, -⟩ | ⟨-, -, -, hres⟩ | ⟨-, -, hres⟩
  · cases he : s.event with
    | accept w => exact absurd he (hno w)
    | reset | transfer | quiet => rw [he, Hse.streamEnd] at hend; split at hend <;> cases hend
  · exact .inl hres
  · exact .inr hres

theorem loads_of_not_accept (table : CodeTable) (s t : State) (ht : step s = .next t) (hno : ∀ w, s.event ≠ .accept w)
    (hl : s.hse.loads table) : t.hse.loads table := by
  rcases (step_of_not_accept s t ht hno).2 with hh | ⟨-, hh⟩ | hh <;> rw [hh]
  · exact .inr ⟨rfl, Hse.soundFor_of_empty table _ rfl⟩
  · exact hl.imp_right fun ⟨hi, hsound⟩ => ⟨hi, s.hse.soundFor_congr table _ rfl hsound⟩
  · exact hl

theorem streams_of_not_accept (table : CodeTable) (pushed : List Sym) (s t : State) (ht : step s = .next t)
    (hno : ∀ w, s.event ≠ .accept w) (hs : s.hse.state = .active → s.hse.streams table pushed) :
    t.hse.state = .active → t.hse.streams table pushed := by
  rcases (step_of_not_accept s t ht hno).2 with hh | ⟨hn, hh⟩ | hh <;> rw [hh]
  · exact fun h => by cases h
  · exact fun ha => streams_emit table pushed s.hse hn (hs ha)
  · exact hs

/-- No result is held once the block is outside IDLE. -/
theorem resultAfter_of_not_idle (s t : State) (held : Option Bits) (ht : step s = .next t) (hi : t.hse.state ≠ .idle) :
    resultAfter (Hse.streamEnd s.event t.hse s.hse) t.hse.state held = none := by
  rcases resultAfter_cases s t held ht with ⟨-, -, hclose, -⟩ | ⟨-, hidle, -⟩ | ⟨-, -, hres⟩
  · exact absurd (hclose ▸ rfl) hi
  · exact absurd hidle hi
  · exact hres

/-! The stages of a call. -/

/-- How far the commands of a call have been accepted, and what is known by then. -/
inductive CallStage (table : CodeTable) (input : List Sym) (s : State) (held : Option Bits) : Prop where
  /-- The `CLRT` is still to come. -/
  | waiting (before : List CmdWord) (order : CodeTable) (hmem : ∀ e ∈ order, e ∈ table)
      (hcmds : s.cmds = before ++ (order.loadCommands ++ streamCommands input).map encode)
  /-- The next commands are `LOAD`s or the `START`. -/
  | loading (left : CodeTable) (hmem : ∀ e ∈ left, e ∈ table)
      (hcmds : s.cmds = ((left.map fun e => loadBits e.1 e.2) ++ streamCommands input).map encode)
      (hloads : s.hse.loads table)
  /-- The next commands are `PUSH`es or the `END`; no older result is held any more. -/
  | pushing (pushed left : List Sym) (hinput : input = pushed ++ left)
      (hcmds : s.cmds = ((left.map fun x => Instr.push x 0 0) ++ [Instr.endStream 0 0 0]).map encode) (hheld : held = none)
      (hstreams : s.hse.state = .active → s.hse.streams table pushed)
  /-- All have been accepted. -/
  | accepted (hcmds : s.cmds = []) (hheld : ∀ r, held = some r → table.encode input = .ok r)

theorem CallStage.of_not_accept {table : CodeTable} {input : List Sym} {s t : State} {held : Option Bits}
    (hstage : CallStage table input s held) (ht : step s = .next t) (hno : ∀ w, s.event ≠ .accept w) :
    CallStage table input t (resultAfter (Hse.streamEnd s.event t.hse s.hse) t.hse.state held) := by
  have hc := (step_of_not_accept s t ht hno).1
  have hres := resultAfter_of_not_accept s t held ht hno
  cases hstage with
  | waiting before order hmem hcmds => exact .waiting before order hmem (hc.trans hcmds)
  | loading left hmem hcmds hloads =>
    exact .loading left hmem (hc.trans hcmds) (loads_of_not_accept table s t ht hno hloads)
  | pushing pushed left hinput hcmds hheld hstreams =>
    exact .pushing pushed left hinput (hc.trans hcmds) (hres.elim (·.trans hheld) id)
      (streams_of_not_accept table pushed s t ht hno hstreams)
  | accepted hcmds hheld =>
    exact .accepted (hc.trans hcmds) fun r hr => hres.elim (fun h => hheld r (h ▸ hr)) fun h => by rw [h] at hr; cases hr

/-- The word that an edge accepts is the one at the front of the host's queue, and no bit is pending. -/
theorem step_of_accept_word (s t : State) (w : CmdWord) (ht : step s = .next t) (he : s.event = .accept w) :
    s.hse.shn = 0 ∧ s.cmds = w :: t.cmds ∧ t.hse = s.hse.accept w := by
  rcases step_next_cases s t ht with ⟨he', -⟩ | ⟨he', -⟩ | ⟨v, rest, he', hn, hs, hr, -, -, hh⟩ | ⟨he', -⟩ <;>
    rw [he] at he' <;> cases he'
  exact ⟨hn, hr ▸ hs, hh⟩

/-- The command at the front of the host's queue, accepted. -/
theorem step_of_accept (s t : State) (w : CmdWord) (i : Instr) (ws : List CmdWord) (ht : step s = .next t)
    (he : s.event = .accept w) (hc : s.cmds = encode i :: ws) :
    s.hse.shn = 0 ∧ t.cmds = ws ∧ t.hse = effect i s.hse := by
  obtain ⟨hn, hs, hh⟩ := step_of_accept_word s t w ht he
  obtain ⟨rfl, rfl⟩ := List.cons.inj (hc.symm.trans hs)
  exact ⟨hn, rfl, by rw [hh, accept_encode]⟩

theorem CallStage.of_accept {table : CodeTable} {input : List Sym} {s t : State} {held : Option Bits} {w : CmdWord}
    (hstage : CallStage table input s held) (ht : step s = .next t) (he : s.event = .accept w)
    (hload : table.loadable) :
    CallStage table input t (resultAfter (Hse.streamEnd s.event t.hse s.hse) t.hse.state held) := by
  cases hstage with
  | waiting before order hmem hcmds =>
    cases before with
    | nil =>
      obtain ⟨-, hc, hh⟩ := step_of_accept s t w (.clrt 0 0 0) _ ht he hcmds
      exact .loading order hmem hc (hh ▸ loads_clrt table s.hse)
    | cons v before =>
      obtain ⟨-, hs, -⟩ := step_of_accept_word s t w ht he
      exact .waiting before order hmem (List.cons.inj (hs.symm.trans hcmds)).2
  | loading left hmem hcmds hloads =>
    cases left with
    | nil =>
      obtain ⟨hn, hc, hh⟩ := step_of_accept s t w (.start 0 0 0) _ ht he hcmds
      obtain ⟨hidle, hstreams⟩ := start_of_loads table s.hse hn hloads
      rw [← hh] at hidle hstreams
      exact .pushing [] input rfl hc (resultAfter_of_not_idle s t held ht hidle) hstreams
    | cons e left =>
      obtain ⟨-, hc, hh⟩ := step_of_accept s t w (loadBits e.1 e.2) _ ht he hcmds
      obtain ⟨hq, hlen⟩ := hload e (hmem e (by simp))
      exact .loading left (fun f hf => hmem f (by simp [hf])) hc (hh ▸ loads_load table e.1 e.2 s.hse hq hlen hloads)
  | pushing pushed left hinput hcmds hheld hstreams =>
    cases left with
    | nil =>
      obtain ⟨hn, hc, -⟩ := step_of_accept s t w (.endStream 0 0 0) _ ht he hcmds
      refine .accepted hc fun r hr => ?_
      rcases resultAfter_cases s t held ht with ⟨ha, -, -, -, hres⟩ | ⟨-, -, -, hres⟩ | ⟨-, -, hres⟩
      · obtain ⟨-, -, henc⟩ := hstreams ha
        have hpending : s.hse.pending = [] := by simp [Hse.pending, hn]
        rw [hres] at hr
        cases hr
        rw [hinput, List.append_nil, henc, hpending, List.append_nil]
      · rw [hres, hheld] at hr; cases hr
      · rw [hres] at hr; cases hr
    | cons x left =>
      obtain ⟨hn, hc, hh⟩ := step_of_accept s t w (.push x 0 0) _ ht he hcmds
      obtain ⟨hidle, hstreams'⟩ := push_of_streams table pushed x s.hse hn hstreams
      rw [← hh] at hidle hstreams'
      exact .pushing (pushed ++ [x]) left (by simp [hinput]) hc (resultAfter_of_not_idle s t held ht hidle) hstreams'
  | accepted hcmds hheld =>
    obtain ⟨-, hs, -⟩ := step_of_accept_word s t w ht he
    rw [hcmds] at hs
    cases hs

/-- Every step of a call leaves it in one of its stages. -/
theorem CallStage.of_step {table : CodeTable} {input : List Sym} {s t : State} {held : Option Bits}
    (hstage : CallStage table input s held) (ht : step s = .next t)
    (hload : table.loadable) :
    CallStage table input t (resultAfter (Hse.streamEnd s.event t.hse s.hse) t.hse.state held) := by
  by_cases hno : ∀ w, s.event ≠ .accept w
  · exact hstage.of_not_accept ht hno
  · push Not at hno
    obtain ⟨w, he⟩ := hno
    exact hstage.of_accept ht he hload

/-- Once the host has nothing more to issue, a result it holds is the Encoder's whole output. -/
theorem CallStage.encode_of_held {table : CodeTable} {input : List Sym} {s : State} {r : Bits}
    (hstage : CallStage table input s (some r)) (hc : s.cmds = []) : table.encode input = .ok r := by
  cases hstage with
  | waiting before order hmem hcmds => simp [hcmds, CodeTable.loadCommands] at hc
  | loading left hmem hcmds hloads => simp [hcmds, streamCommands] at hc
  | pushing pushed left hinput hcmds hheld hstreams => cases hheld
  | accepted hcmds hheld => exact hheld r rfl

/-- A call's commands belong to the input's code table. -/
theorem encodeCall_ok (ch : BuildChoices) (input : List Sym) (table : CodeTable) (is : List Instr)
    (h : encodeCall ch input = .ok (table, is)) :
    codeTableOf ch input = .ok table ∧ is = (ch.loadOrder table).loadCommands ++ streamCommands input := by
  rw [encodeCall] at h
  split at h
  · cases h
  · next t ht =>
    cases h
    exact ⟨ht, rfl⟩

/-- Settles O57: the stages of the call hold along every run, and the last one ties the result held to the Encoder's output. -/
theorem encodeCallAnswersNoPartialResult : Obligations.EncodeCallAnswersNoPartialResult := by
  intro ch input k s table bits h
  rcases encodeOn_cases ch input k s with ⟨-, hinvalid⟩ | ⟨table', is, (t : State), hcall, hrun, hanswer⟩
  · rw [hinvalid] at h
    cases h
  · obtain ⟨htable, rfl⟩ := encodeCall_ok ch input table' is hcall
    rw [hanswer, State.result_eq_some, readResult_encoded] at h
    obtain ⟨hc, -, -, hheld, rfl⟩ := h
    have hload := codeTableOf_loadable ch input table htable
    have hstage := latestResult_keeps (CallStage table input) (fun u v held hu huv => hu.of_step huv hload) k _ t none
      (.waiting s.cmds (ch.loadOrder table) (fun e he => (ch.loadOrder_perm table).mem_iff.mp he) rfl) hrun
    rw [hheld] at hstage
    exact ⟨htable, hstage.encode_of_held hc⟩

end Sys2Proof.Machine

/-! PROOFS. The state: the invariants of 10_state.md R34 (O35 to O38) and the length property that rests on them (O42), the
transitions of `STATE` (O23), the counters (O24), the status ports (O29) and reset (O32, O33). -/

namespace Sys2Proof.Machine

variable {c : Config}

/-! Each effect keeps the invariants (10_state.md R34). A word is accepted with no bit pending, hence the premise on `SHN`. -/

theorem Hse.reset_inv : (Hse.reset c).inv :=
  ⟨⟨by simp, by simp, fun _ => ⟨rfl, rfl⟩⟩, ⟨Hse.reset_table_wf, by simp⟩, ⟨by simp, by simp⟩, by simp, by simp⟩

theorem Hse.raise_inv (cause : Cause) (cmd : Cmd c) (h : Hse c) (hi : h.inv) (hn : h.shn = 0)
    (hinput : cause ≠ .invalidInput) (hnone : cause ≠ .none) : (h.raise cause cmd).inv := by
  obtain ⟨-, htable, ⟨hmax, -⟩, hcount⟩ := hi
  exact ⟨⟨hinput, by simp [hnone], fun h0 => absurd h0 hnone⟩, htable, ⟨hmax, fun h0 => absurd hn h0⟩, hcount⟩

theorem Hse.clearError_inv (h : Hse c) (hi : h.inv) (hn : h.shn = 0) : h.clearError.inv := by
  obtain ⟨-, htable, ⟨hmax, -⟩, hcount⟩ := hi
  exact ⟨⟨by simp, by simp, fun _ => ⟨rfl, rfl⟩⟩, htable, ⟨hmax, fun h0 => absurd hn h0⟩, hcount⟩

theorem Hse.emptyTable_inv (h : Hse c) (hi : h.inv) : h.emptyTable.inv := by
  obtain ⟨herror, -, hpending, hcount⟩ := hi
  exact ⟨herror, ⟨Table.nil_wf, by simp⟩, hpending, hcount⟩

/-- An entry of a length that `LOAD` accepts meets R34 item 3. -/
theorem Cmd.entry_ok (cmd : Cmd c) (hl : lengthOk c cmd.len = true) : Entry.ok (Cmd.entry cmd) :=
  ⟨((lengthOk_iff cmd.len).mp hl).2, lowBits_lt _ _⟩

theorem Hse.setEntry_inv (sym : BitVec c.symW) (e : Entry c) (h : Hse c) (hi : h.inv) (he : Entry.ok e) :
    (h.setEntry sym e).inv := by
  obtain ⟨herror, ⟨hwf, hentries⟩, hpending, hcount⟩ := hi
  refine ⟨herror, ⟨h.setEntry_wf hwf sym e, fun cell hm => ?_⟩, hpending, hcount⟩
  rcases Table.mem_write _ _ _ cell hm with hold | ⟨rfl, -⟩
  · exact hentries cell hold
  · exact he

/-- Outside ERROR no error is recorded. -/
theorem Hse.err_none_of_inv (h : Hse c) (hi : h.inv) (hs : h.state ≠ .error) : h.err = .none := by
  obtain ⟨⟨-, hstate, -⟩, -⟩ := hi
  exact not_not.mp fun hne => hs (hstate.mpr hne)

theorem Hse.openStream_inv (h : Hse c) (hi : h.inv) (hs : h.state = .idle) (hn : h.shn = 0) : h.openStream.inv := by
  have hnone : h.err = .none := h.err_none_of_inv hi (by simp [hs])
  obtain ⟨⟨hinput, -, hrecord⟩, htable, ⟨hmax, -⟩, -⟩ := hi
  exact ⟨⟨hinput, by simp [hnone], hrecord⟩, htable, ⟨hmax, fun _ => rfl⟩, Nat.le_refl _, by simp [hn]⟩

theorem Hse.closeStream_inv (h : Hse c) (hi : h.inv) (hs : h.state = .active) (hn : h.shn = 0) : h.closeStream.inv := by
  have hnone : h.err = .none := h.err_none_of_inv hi (by simp [hs])
  obtain ⟨⟨hinput, -, hrecord⟩, htable, ⟨hmax, -⟩, hcount⟩ := hi
  exact ⟨⟨hinput, by simp [hnone], hrecord⟩, htable, ⟨hmax, fun h0 => absurd hn h0⟩, hcount⟩

/-- The bits queued are the bits counted, both taken modulo `2^CNT_W` (log entry 6). -/
theorem Hse.queue_inv (e : Entry c) (h : Hse c) (hi : h.inv) (he : Entry.ok e) (hs : h.state = .active) (hn : h.shn = 0) :
    (h.queue e).inv := by
  obtain ⟨herror, htable, -, hmark, hbits⟩ := hi
  refine ⟨herror, htable, ⟨he.1, fun _ => hs⟩, hmark, ?_⟩
  have hbits' : (h.out.length - h.mark) % 2 ^ c.cntW = h.bitcnt.toNat := by simpa [hn] using hbits
  simp [← hbits', Nat.add_mod]

/-- A bit that leaves is transferred and no longer pending: the sum of item 5 stays. -/
theorem Hse.emit_inv (h : Hse c) (hi : h.inv) (hn : h.shn ≠ 0) : h.emit.inv := by
  obtain ⟨herror, htable, ⟨hmax, hactive⟩, hmark, hbits⟩ := hi
  have hpred : h.emit.shn.toNat = h.shn.toNat - 1 := h.shn_pred hn
  have hpos : h.shn.toNat ≠ 0 := fun h0 => hn (h.shn_toNat_zero.mp h0)
  have hlen : h.emit.out.length = h.out.length + 1 := by simp
  have hsum : h.emit.out.length - h.emit.mark + h.emit.shn.toNat = h.out.length - h.mark + h.shn.toNat := by
    rw [hpred, hlen, Hse.emit_mark]; omega
  exact ⟨herror, htable, ⟨by omega, fun _ => hactive hn⟩, by rw [hlen, Hse.emit_mark]; omega, hsum ▸ hbits⟩

/-- Every accepted word keeps the invariants. -/
theorem Hse.accept_inv (w : BitVec c.cmdW) (h : Hse c) (hi : h.inv) (hn : h.shn = 0) : (h.accept w).inv := by
  have htable : h.tableOk := hi.2.1
  have hraise : ∀ cause, cause ≠ .invalidInput → cause ≠ .none → (h.raise cause (Cmd.ofWord w)).inv := fun cause =>
    h.raise_inv cause _ hi hn
  rcases h.accept_cases w with ⟨-, he⟩ | ⟨-, -, -, he⟩ | ⟨-, he⟩ | ⟨-, -, he⟩ | ⟨-, -, he⟩ | ⟨-, -, he⟩ | ⟨-, -, he⟩ |
    ⟨-, -, hl, he⟩ | ⟨-, -, -, he⟩ | ⟨hs, -, he⟩ | ⟨-, -, -, he⟩ | ⟨hs, -, -, he⟩ | ⟨hs, -, he⟩ <;> rw [he]
  · exact hi
  · exact hi
  · exact h.clearError_inv hi hn
  · exact hraise _ (by simp) (by simp)
  · exact hraise _ (by simp) (by simp)
  · exact hraise _ (by simp) (by simp)
  · exact h.emptyTable_inv hi
  · exact h.setEntry_inv _ _ hi (Cmd.entry_ok _ hl)
  · exact hraise _ (by simp) (by simp)
  · exact h.openStream_inv hi hs hn
  · exact hraise _ (by simp) (by simp)
  · exact h.queue_inv _ hi (h.entry_ok htable _) hs hn
  · exact h.closeStream_inv hi hs hn

/-- Everything an edge can do to the block (70_reset_and_hazards.md R186), at any configuration. -/
theorem Hse.edge_cases (p : PortsIn c) (h : Hse c) :
    h.edge p = Hse.reset c ∨ (h.shn ≠ 0 ∧ h.edge p = h.emit) ∨ (∃ w, h.shn = 0 ∧ h.edge p = h.accept w) ∨ h.edge p = h := by
  cases he : h.event p with
  | reset => exact .inl (by rw [Hse.edge, he])
  | transfer => exact .inr (.inl ⟨((h.event_transfer_iff p).mp he).2.1, by rw [Hse.edge, he]⟩)
  | accept w => exact .inr (.inr (.inl ⟨w, ((h.event_accept_iff p w).mp he).2.1, by rw [Hse.edge, he]⟩))
  | quiet => exact .inr (.inr (.inr (by rw [Hse.edge, he])))

/-- Settles O35: reset meets the invariants, an emit step and an accepted word keep them, a quiet edge changes nothing. -/
theorem everyEdgeKeepsTheInvariants : Obligations.EveryEdgeKeepsTheInvariants := by
  intro c p h hi
  rcases h.edge_cases p with he | ⟨hn, he⟩ | ⟨w, hn, he⟩ | he <;> rw [he]
  · exact Hse.reset_inv
  · exact h.emit_inv hi hn
  · exact h.accept_inv w hi hn
  · exact hi

/-- The block after a step is the block after one edge with that step's inputs. -/
theorem step_hse (s t : State) (ht : step s = .next t) : t.hse = s.hse.edge s.portsIn := by
  have hevent : s.hse.event s.portsIn = s.event := rfl
  rcases step_next_cases s t ht with ⟨he, rfl⟩ | ⟨he, -, rfl⟩ | ⟨w, rest, he, -, -, -, -, -, hh⟩ | ⟨he, rfl⟩
  · rw [Hse.edge, hevent, he]; rfl
  · rw [Hse.edge, hevent, he]; rfl
  · rw [Hse.edge, hevent, he, hh]
  · rw [Hse.edge, hevent, he]; rfl

/-- Settles O36: a step is an edge of the block. -/
theorem everyStepKeepsTheInvariants : Obligations.EveryStepKeepsTheInvariants := by
  intro s t hi ht
  rw [State.inv, step_hse s t ht]
  exact everyEdgeKeepsTheInvariants _ _ _ hi

/-- Settles O37: the machine's reset block is the reset block at the defaults. -/
theorem resetMeetsTheInvariants : Obligations.ResetMeetsTheInvariants := ⟨Hse.reset_inv, fun _ => Hse.reset_inv⟩

/-- Settles O38: an unlisted symbol reads the empty entry, and a value below `2^LEN` has no bit at or above `LEN`. -/
theorem invariantsBoundEveryEntry : Obligations.InvariantsBoundEveryEntry := by
  rintro c h ⟨-, htable, ⟨-, hactive⟩, -⟩
  refine ⟨fun sym => ?_, fun hs => ?_⟩
  · obtain ⟨hlen, hcode⟩ := h.entry_ok htable sym
    exact ⟨hlen, fun i hle => Nat.testBit_lt_two_pow (Nat.lt_of_lt_of_le hcode (Nat.pow_le_pow_right (by decide) hle))⟩
  · have hn : h.shn = 0 := not_not.mp fun hne => hs (hactive hne)
    simp [Hse.pending, hn]

/-- A step completes a stream only with the bits since `START`, none of them pending. -/
theorem State.completed_of_streamEnd (s : State) (r : Bits) (he : s.streamEnd = some (.completed r)) :
    s.hse.shn = 0 ∧ r = s.hse.sinceStart := by
  obtain ⟨t, ht⟩ := step_answers s
  rw [s.streamEnd_of_step t ht] at he
  rcases resultAfter_cases s t none ht with ⟨-, hn, -, hend, -⟩ | ⟨-, -, hend, -⟩ | ⟨hend, -⟩
  · rw [hend] at he
    cases he
    exact ⟨hn, rfl⟩
  · rw [hend] at he
    cases he
  · exact absurd he (hend r)

/-- Settles O42: at the `END` no bit is pending, so that item 5 counts the result. -/
theorem lengthProperty : Obligations.LengthProperty := by
  rintro s r ⟨-, -, -, -, hbits⟩ he
  obtain ⟨hn, rfl⟩ := s.completed_of_streamEnd r he
  have hmod : s.hse.sinceStart.length % 2 ^ 32 = s.hse.bitcnt.toNat := by
    simpa [Hse.sinceStart, hn] using hbits
  exact ⟨hmod, fun hlt => (Nat.mod_eq_of_lt hlt).symm.trans hmod⟩

/-! The next value of `STATE` for an accepted word (10_state.md R22), one lemma for each phase it is accepted in. -/

theorem Hse.accept_state_idle (w : BitVec c.cmdW) (h : Hse c) (hi : h.state = .idle) :
    (h.accept w).state =
      if (Cmd.ofWord w).op.toNat = 3 then .active
      else if (Cmd.ofWord w).op.toNat = 0 ∨ (Cmd.ofWord w).op.toNat = 1 ∨ (Cmd.ofWord w).op.toNat = 6 ∨
        ((Cmd.ofWord w).op.toNat = 2 ∧ 1 ≤ (Cmd.ofWord w).len.toNat ∧ (Cmd.ofWord w).len.toNat ≤ c.lMax) then .idle
      else .error := by
  simp only [← lengthOk_iff]
  rcases h.accept_cases w with ⟨hop, he⟩ | ⟨hs, -⟩ | ⟨hop, he⟩ | ⟨-, h7, he⟩ | ⟨hs, -⟩ | ⟨-, hop, he⟩ | ⟨-, hop, he⟩ |
    ⟨-, hop, hl, he⟩ | ⟨-, hop, hl, he⟩ | ⟨-, hop, he⟩ | ⟨hs, -⟩ | ⟨hs, -⟩ | ⟨hs, -⟩
  · simp [he, hop, hi]
  · cases hi.symm.trans hs
  · simp [he, hop]
  · rw [he, if_neg (by omega), if_neg (by omega)]; rfl
  · cases hi.symm.trans hs
  · rcases hop with hop | hop <;> simp [he, hop]
  · simp [he, hop, hi]
  · simp [he, hop, hl, hi]
  · simp [he, hop, hl]
  · simp [he, hop]
  · cases hi.symm.trans hs
  · cases hi.symm.trans hs
  · cases hi.symm.trans hs

theorem Hse.accept_state_active (w : BitVec c.cmdW) (h : Hse c) (ha : h.state = .active) :
    (h.accept w).state =
      if (Cmd.ofWord w).op.toNat = 5 ∨ (Cmd.ofWord w).op.toNat = 6 then .idle
      else if (Cmd.ofWord w).op.toNat = 0 ∨
        ((Cmd.ofWord w).op.toNat = 4 ∧ (h.lookup (Cmd.ofWord w).sym).isSome = true) then .active
      else .error := by
  have hhit : (h.lookup (Cmd.ofWord w).sym).isSome = true ↔ (h.entry (Cmd.ofWord w).sym).len ≠ 0 := by
    rw [Option.isSome_iff_ne_none, Ne, h.lookup_eq_none_iff]
  simp only [hhit]
  rcases h.accept_cases w with ⟨hop, he⟩ | ⟨hs, -⟩ | ⟨hop, he⟩ | ⟨-, h7, he⟩ | ⟨-, hop, he⟩ | ⟨hs, -⟩ | ⟨hs, -⟩ |
    ⟨hs, -⟩ | ⟨hs, -⟩ | ⟨hs, -⟩ | ⟨-, hop, hl, he⟩ | ⟨-, hop, hl, he⟩ | ⟨-, hop, he⟩
  · simp [he, hop, ha]
  · cases ha.symm.trans hs
  · simp [he, hop]
  · rw [he, if_neg (by omega), if_neg (by omega)]; rfl
  · rcases hop with hop | hop | hop <;> simp [he, hop]
  · cases ha.symm.trans hs
  · cases ha.symm.trans hs
  · cases ha.symm.trans hs
  · cases ha.symm.trans hs
  · cases ha.symm.trans hs
  · simp [he, hop, hl]
  · rw [he, if_neg (by simp [hop]), if_pos (.inr ⟨by rw [hop]; rfl, hl⟩)]
    exact ha
  · simp [he, hop]

theorem Hse.accept_state_error (w : BitVec c.cmdW) (h : Hse c) (hs : h.state = .error) :
    (h.accept w).state = if (Cmd.ofWord w).op.toNat = 6 then .idle else .error := by
  rcases h.accept_cases w with ⟨hop, he⟩ | ⟨-, -, hop, he⟩ | ⟨hop, he⟩ | ⟨hne, -⟩ | ⟨ho, -⟩ | ⟨ho, -⟩ | ⟨ho, -⟩ |
    ⟨ho, -⟩ | ⟨ho, -⟩ | ⟨ho, -⟩ | ⟨ho, -⟩ | ⟨ho, -⟩ | ⟨ho, -⟩
  · simp [he, hop, hs]
  · have hne : (Cmd.ofWord w).op.toNat ≠ 6 := fun h6 => hop (BitVec.eq_of_toNat_eq h6)
    rw [he, hs, if_neg hne]
  · simp [he, hop]
  · exact absurd hs hne
  all_goals cases hs.symm.trans ho

/-- Settles O23: a reset, a transfer and a quiet edge by what they do to the block, an accepted word by the phase it meets. -/
theorem stateTransitionTable : Obligations.StateTransitionTable := by
  intro s t ht
  rcases step_next_cases s t ht with ⟨he, rfl⟩ | ⟨he, -, rfl⟩ | ⟨w, rest, he, -, -, -, -, -, hh⟩ | ⟨he, rfl⟩
  · simp [he]
  · simp [he]
  · simp only [he, hh]
    cases hs : s.hse.state with
    | idle => exact s.hse.accept_state_idle w hs
    | active => exact s.hse.accept_state_active w hs
    | error => exact s.hse.accept_state_error w hs
  · simp [he]

/-! The counters (10_state.md R27, R28). -/

/-- `START` accepted in IDLE (41_stream_commands.md R100). -/
theorem Hse.accept_start_idle (w : BitVec c.cmdW) (h : Hse c) (hop : (Cmd.ofWord w).op = 0x3) (hs : h.state = .idle) :
    h.accept w = h.openStream := by
  rw [← Hse.legalIn_same .idle (Cmd.ofWord w) Hse.openStream h hs (by simp)]
  simp [Hse.accept, hop, Hse.start]

/-- `PUSH` accepted in ACTIVE (41_stream_commands.md R101). -/
theorem Hse.accept_push_active (w : BitVec c.cmdW) (h : Hse c) (hop : (Cmd.ofWord w).op = 0x4) (hs : h.state = .active) :
    h.accept w = h.pushActive (Cmd.ofWord w) := by
  rw [← Hse.legalIn_same .active (Cmd.ofWord w) (Hse.pushActive _) h hs (by simp)]
  simp [Hse.accept, hop, Hse.push]

theorem Hse.pushActive_miss (cmd : Cmd c) (h : Hse c) (hq : h.lookup cmd.sym = none) :
    h.pushActive cmd = h.raise .missingCode cmd :=
  if_pos ((h.lookup_eq_none_iff cmd.sym).mp hq)

theorem Hse.pushActive_hit (cmd : Cmd c) (h : Hse c) (q : Bits) (hq : h.lookup cmd.sym = some q) :
    h.pushActive cmd = h.queue (h.entry cmd.sym) :=
  if_neg fun h0 => by simp [(h.lookup_eq_none_iff cmd.sym).mpr h0] at hq

/-- A queued codeword advances the counters by one symbol and by its length. -/
theorem Hse.queue_counters (h : Hse c) (sym : BitVec c.symW) (q : Bits) (hq : h.lookup sym = some q) :
    (h.queue (h.entry sym)).symcnt.toNat = (h.symcnt.toNat + 1) % 2 ^ c.cntW ∧
    (h.queue (h.entry sym)).bitcnt.toNat = (h.bitcnt.toNat + q.length) % 2 ^ c.cntW := by
  rw [(Entry.codeword_length _ q hq).1]
  simp

/-- Every other word leaves the counters. -/
theorem Hse.accept_counters_other (w : BitVec c.cmdW) (h : Hse c)
    (hstart : ¬ ((Cmd.ofWord w).op = 0x3 ∧ h.state = .idle)) (hpush : ¬ ((Cmd.ofWord w).op = 0x4 ∧ h.state = .active)) :
    (h.accept w).symcnt = h.symcnt ∧ (h.accept w).bitcnt = h.bitcnt := by
  rcases h.accept_cases w with ⟨-, he⟩ | ⟨-, -, -, he⟩ | ⟨-, he⟩ | ⟨-, -, he⟩ | ⟨-, -, he⟩ | ⟨-, -, he⟩ | ⟨-, -, he⟩ |
    ⟨-, -, -, he⟩ | ⟨-, -, -, he⟩ | ⟨hs, hop, he⟩ | ⟨hs, hop, -, he⟩ | ⟨hs, hop, -, he⟩ | ⟨-, -, he⟩ <;> rw [he]
  · exact ⟨rfl, rfl⟩
  · exact ⟨rfl, rfl⟩
  · exact ⟨rfl, rfl⟩
  · exact ⟨rfl, rfl⟩
  · exact ⟨rfl, rfl⟩
  · exact ⟨rfl, rfl⟩
  · exact ⟨rfl, rfl⟩
  · exact ⟨rfl, rfl⟩
  · exact ⟨rfl, rfl⟩
  · exact absurd ⟨hop, hs⟩ hstart
  · exact absurd ⟨hop, hs⟩ hpush
  · exact absurd ⟨hop, hs⟩ hpush
  · exact ⟨rfl, rfl⟩

/-- Settles O24: of the accepted words only `START` in IDLE and `PUSH` in ACTIVE touch the counters. -/
theorem countersCountPushes : Obligations.CountersCountPushes := by
  intro s t ht
  rcases step_next_cases s t ht with ⟨he, rfl⟩ | ⟨he, -, rfl⟩ | ⟨w, rest, he, -, -, -, -, -, hh⟩ | ⟨he, rfl⟩
  · simp [he]
  · simp [he]
  · simp only [he, hh]
    split_ifs with hstart hpush
    · rw [s.hse.accept_start_idle w hstart.1 hstart.2]
      exact ⟨rfl, rfl⟩
    · rw [s.hse.accept_push_active w hpush.1 hpush.2]
      cases hq : s.hse.lookup (w.extractLsb' 4 8) with
      | some q =>
        rw [Hse.pushActive_hit _ s.hse q hq]
        exact s.hse.queue_counters _ q hq
      | none =>
        rw [Hse.pushActive_miss _ s.hse hq]
        exact ⟨rfl, rfl⟩
    · exact s.hse.accept_counters_other w hstart hpush
  · simp [he]

/-! The status ports (10_state.md R33) and reset (R35). -/

/-- Settles O29: the two coded ports by the code's value, the two derived ones by the test they are, the others as registers. -/
theorem statusPortsShowTheRegisters : Obligations.StatusPortsShowTheRegisters := by
  intro c h rst
  refine ⟨?_, ?_, rfl, rfl, rfl, rfl, ?_, ?_⟩
  · show h.state.code.toNat = _
    cases h.state <;> rfl
  · show h.err.code.toNat = _
    cases h.err <;> rfl
  · rw [Ne, h.shn_toNat_zero]
    exact bne_iff_ne
  · exact beq_iff_eq

/-- Settles O32: every value is the one 10_state.md R35 lists, and an address of the empty table reads the empty entry. -/
theorem resetValues : Obligations.ResetValues := by
  refine ⟨rfl, ?_⟩
  rintro c h rfl
  exact ⟨rfl, rfl, rfl, rfl, rfl, rfl, fun _ => ⟨rfl, rfl⟩, rfl, rfl, by simp [Hse.busy], rfl, rfl, rfl⟩

/-- Settles O33: with `rst = 1` the edge's event is the reset event, and both handshake outputs are masked. -/
theorem resetWinsAtAnyEdge : Obligations.ResetWinsAtAnyEdge := by
  refine ⟨fun s hr => ?_, fun c h => ⟨rfl, rfl⟩⟩
  rw [step, (State.event_reset_iff s).mpr hr]
  rfl

end Sys2Proof.Machine

/-! PROOFS. The code table: what `CLRT` and `LOAD` do and leave unchanged (O5, O15), and that a symbol's lookup is its latest `LOAD`
(O43). -/

namespace Sys2Proof.Machine

/-! `CLRT` and `LOAD` in IDLE (40_table_commands.md R90, R91). -/

theorem effect_clrt_idle (sym : Sym) (len : Len) (code : Code) (h : Hse Config.hse) (hi : h.state = .idle) :
    effect (.clrt sym len code) h = h.emptyTable := by
  rw [effect_clrt, Hse.legalIn_same _ _ _ _ hi (by simp)]

/-- At the defaults `LOAD` refuses no length but 0: `L_MAX` is the greatest value of `LEN` (00_scope.md R7, R9). -/
theorem effect_load_idle (sym : Sym) (len : Len) (code : Code) (h : Hse Config.hse) (hi : h.state = .idle)
    (hl : 1 ≤ len.toNat) : effect (.load sym len code) h = h.setEntry sym (Cmd.entry (Instr.load sym len code).toCmd) := by
  have hok : lengthOk Config.hse len = true := (lengthOk_iff len).mpr ⟨hl, Nat.le_of_lt_succ len.isLt⟩
  exact (Hse.loadEntry_idle (Instr.load sym len code).toCmd h hi).trans (if_pos hok)

/-- Settles O5: the `LOAD` writes the entry whose codeword is the assembled one. -/
theorem loadedCodewordIsLookedUp : Obligations.LoadedCodewordIsLookedUp := by
  intro sym bits s hi hlow hhigh
  have hlen : 1 ≤ (loadBits sym bits).toCmd.len.toNat := hlow.trans_eq (loadBits_len sym bits hhigh).symm
  have heff : effect (loadBits sym bits) s.hse = s.hse.setEntry sym (Cmd.entry (loadBits sym bits).toCmd) :=
    effect_load_idle _ _ _ s.hse hi hlen
  refine ⟨_, exec_eq _ s, ?_, fun r => ?_⟩
  · rw [State.onBlock_hse, heff, Hse.setEntry_state, hi]
  · rw [State.onBlock_hse, heff]
    split_ifs with hr
    · rw [hr, lookup_load sym bits s.hse hlow hhigh]
    · exact Hse.lookup_setEntry_other s.hse sym r _ hr

/-! The frame (20_memory.md R53, R55). -/

/-- Everything `CLRT` and `LOAD` can do: leave ERROR as it is, enter ERROR, or change the table in IDLE. -/
theorem effect_tableCommand_cases (i : Instr) (sym : Sym) (len : Len) (code : Code) (h : Hse Config.hse)
    (hi : i = .clrt sym len code ∨ i = .load sym len code) :
    (h.state = .error ∧ effect i h = h) ∨
    (h.state ≠ .error ∧ ∃ cause, effect i h = h.raise cause i.toCmd) ∨
    (h.state = .idle ∧ i = .clrt sym len code ∧ effect i h = h.emptyTable) ∨
    (h.state = .idle ∧ i = .load sym len code ∧ ∃ e, effect i h = h.setEntry sym e) := by
  rcases hi with rfl | rfl
  · rw [effect_clrt]
    rcases h.legalIn_cases .idle ⟨0x1, sym, len, code⟩ Hse.emptyTable with ⟨hs, he⟩ | ⟨-, hs, he⟩ | ⟨hs, -, he⟩
    · exact .inl ⟨hs, he⟩
    · exact .inr (.inr (.inl ⟨hs, rfl, he⟩))
    · exact .inr (.inl ⟨hs, _, he⟩)
  · rw [effect_load]
    rcases h.legalIn_cases .idle ⟨0x2, sym, len, code⟩ _ with ⟨hs, he⟩ | ⟨hne, hs, he⟩ | ⟨hs, -, he⟩
    · exact .inl ⟨hs, he⟩
    · rw [he]
      split
      · exact .inr (.inr (.inr ⟨hs, rfl, _, rfl⟩))
      · exact .inr (.inl ⟨hne, _, rfl⟩)
    · exact .inr (.inl ⟨hs, _, he⟩)

/-- Settles O15: a discard changes nothing, an error entry only its four registers, and the commands' own effect only the
table. -/
theorem tableCommandFrame : Obligations.TableCommandFrame := by
  intro i sym len code s t hi ht
  obtain rfl : s.onBlock (effect i) = t := by rwa [exec_eq, Host.Outcome.next.injEq] at ht
  simp only [State.onBlock_hse]
  rcases effect_tableCommand_cases i sym len code s.hse hi with ⟨-, he⟩ | ⟨hs, cause, he⟩ | ⟨hs, rfl, he⟩ | ⟨hs, rfl, e, he⟩
  · simp [he]
  · have hentry : ∀ r, (s.hse.raise cause i.toCmd).entry r = s.hse.entry r := Hse.entry_congr rfl
    simp [he, hs, hentry]
  · simp [he, hs]
  · simp +contextual [he, hs, Hse.entry_setEntry_other]

/-! Sequences of `CLRT`s and `LOAD`s (20_memory.md R59). -/

/-- Words run one list after the other: the drain that ends the first list is the one that begins the second. -/
theorem Hse.runWords_append {c : Config} (ws vs : List (BitVec c.cmdW)) (h : Hse c) :
    Hse.runWords (ws ++ vs) h = Hse.runWords vs (Hse.runWords ws h) := by
  induction ws generalizing h with
  | nil => exact (Hse.runWords_drain vs h).symm
  | cons w ws ih => exact ih (h.drain.accept w)

/-- A command's word, accepted with no bit pending, has the command's effect. -/
theorem runWords_encode_cons (i : Instr) (is : List Instr) (h : Hse Config.hse) (hn : h.shn = 0) :
    Hse.runWords ((i :: is).map encode) h = Hse.runWords (is.map encode) (effect i h) := by
  rw [List.map_cons, Hse.runWords_cons_of_shn_zero _ _ h hn, accept_encode]

/-- A `CLRT`, or a `LOAD` of a legal length. -/
def legalTableCommand (i : Instr) : Prop :=
  (∃ a b d, i = .clrt a b d) ∨ ∃ a b d, i = .load a b d ∧ 1 ≤ b.toNat

/-- A block in which the next `CLRT` or `LOAD` has its own effect: in IDLE, with no bit pending. -/
def Hse.quiescent (h : Hse Config.hse) : Prop := h.state = .idle ∧ h.shn = 0

theorem effect_quiescent (i : Instr) (h : Hse Config.hse) (hi : legalTableCommand i) (hq : h.quiescent) :
    (effect i h).quiescent := by
  rcases hi with ⟨a, b, d, rfl⟩ | ⟨a, b, d, rfl, hb⟩
  · rw [effect_clrt_idle a b d h hq.1]
    exact hq
  · rw [effect_load_idle a b d h hq.1 hb]
    exact hq

theorem runWords_quiescent (is : List Instr) (h : Hse Config.hse) (hc : ∀ i ∈ is, legalTableCommand i)
    (hq : h.quiescent) : (Hse.runWords (is.map encode) h).quiescent := by
  induction is generalizing h with
  | nil => rwa [List.map_nil, Hse.runWords, Hse.drain_of_shn_zero h hq.2]
  | cons i is ih =>
    obtain ⟨hi, his⟩ := List.forall_mem_cons.mp hc
    rw [runWords_encode_cons i is h hq.2]
    exact ih _ his (effect_quiescent i h hi hq)

/-- A run of legal table commands, at one of them. -/
theorem runWords_split (before after : List Instr) (i : Instr) (h : Hse Config.hse)
    (hc : ∀ j ∈ before, legalTableCommand j) (hq : h.quiescent) :
    Hse.runWords ((before ++ i :: after).map encode) h =
      Hse.runWords (after.map encode) (effect i (Hse.runWords (before.map encode) h)) := by
  rw [List.map_append, Hse.runWords_append, runWords_encode_cons i after _ (runWords_quiescent before h hc hq).2]

/-- `LOAD`s of other symbols leave a symbol's lookup. -/
theorem lookup_runWords_of_loads_other (is : List Instr) (sym : Sym) (h : Hse Config.hse)
    (hc : ∀ i ∈ is, legalTableCommand i) (hother : ∀ i ∈ is, ∃ a b d, i = .load a b d ∧ a ≠ sym) (hq : h.quiescent) :
    (Hse.runWords (is.map encode) h).lookup sym = h.lookup sym := by
  induction is generalizing h with
  | nil => rw [List.map_nil, Hse.runWords, Hse.drain_of_shn_zero h hq.2]
  | cons i is ih =>
    obtain ⟨hi, his⟩ := List.forall_mem_cons.mp hc
    obtain ⟨⟨a, b, d, rfl, ha⟩, hothers⟩ := List.forall_mem_cons.mp hother
    have hb : 1 ≤ b.toNat := by simpa [legalTableCommand] using hi
    rw [runWords_encode_cons _ is h hq.2, ih _ his hothers (effect_quiescent _ h hi hq), effect_load_idle a b d h hq.1 hb,
      Hse.lookup_setEntry_other h a sym _ ha.symm]

/-- Settles O43: the commands before lead to some block in IDLE, the command itself fixes the lookup there, and the `LOAD`s after
it leave the lookup. -/
theorem lookupIsTheLatestLoad : Obligations.LookupIsTheLatestLoad := by
  intro before after sym len code h hi hn hl hc hother
  obtain ⟨hbefore, hafter⟩ := List.forall_mem_append.mp hc
  have hq := runWords_quiescent before h hbefore ⟨hi, hn⟩
  have key : ∀ i, legalTableCommand i → (Hse.runWords ((before ++ i :: after).map encode) h).lookup sym =
      (effect i (Hse.runWords (before.map encode) h)).lookup sym := fun i hi' => by
    rw [runWords_split before after i h hbefore ⟨hi, hn⟩,
      lookup_runWords_of_loads_other after sym _ hafter hother (effect_quiescent i _ hi' hq)]
  refine ⟨?_, fun a b d => ?_, lookup_runWords_of_loads_other after sym h hafter hother ⟨hi, hn⟩⟩
  · rw [key _ (.inr ⟨sym, len, code, rfl, hl⟩), effect_load_idle sym len code _ hq.1 hl]
    exact Hse.lookup_setEntry_same (Instr.load sym len code).toCmd _ hl
  · rw [key _ (.inl ⟨a, b, d, rfl⟩), effect_clrt_idle a b d _ hq.1, Hse.lookup, Hse.entry_emptyTable,
      Entry.codeword_empty]

end Sys2Proof.Machine

/-! PROOFS. The encoding: fields and words determine each other (O1), known words (O2), the low four bits alone select the command
(O3), and unused fields are ignored (O4). -/

namespace Sys2Proof

/-- The word of a word's fields is the word (30_encoding.md R71, R78): the fields tile it, so that every bit is a bit of the one
field whose positions it lies in. -/
theorem Cmd.toWord_ofWord {c : Config} (w : BitVec c.cmdW) : (Cmd.ofWord w : Cmd c).toWord = w := by
  refine BitVec.eq_of_getLsbD_eq fun i hi => ?_
  have htile : i < 4 + c.symW + c.lenW + c.lMax := hi
  rcases Nat.lt_or_ge i 4 with hop | hop
  · simp [Cmd.toWord, Cmd.ofWord, hi, hop, show i < 4 + c.symW by omega, show i < 4 + c.symW + c.lenW by omega]
  rcases Nat.lt_or_ge i (4 + c.symW) with hsym | hsym
  · simp [Cmd.toWord, Cmd.ofWord, hi, hsym, hop, show ¬ i < 4 by omega, show i - 4 < c.symW by omega,
      show i < 4 + c.symW + c.lenW by omega, Nat.add_sub_cancel' hop]
  rcases Nat.lt_or_ge i (4 + c.symW + c.lenW) with hlen | hlen
  · simp [Cmd.toWord, Cmd.ofWord, hi, hlen, show ¬ i < 4 by omega, show ¬ i - 4 < c.symW by omega,
      show ¬ i < 4 + c.symW by omega, show i - (4 + c.symW) < c.lenW by omega, Nat.add_sub_cancel' hsym]
  · simp [Cmd.toWord, Cmd.ofWord, hi, show ¬ i < 4 by omega, show ¬ i - 4 < c.symW by omega,
      show ¬ i < 4 + c.symW by omega, show ¬ i - (4 + c.symW) < c.lenW by omega, show ¬ i < 4 + c.symW + c.lenW by omega,
      show i - (4 + c.symW + c.lenW) < c.lMax by omega, Nat.add_sub_cancel' hlen]

/-- The opcode map gives a command's fields the command (30_encoding.md R74). -/
theorem decodeFields_toCmd (i : Instr) : decodeFields i.toCmd = .command i := by
  cases i <;> rfl

theorem decode_encode (i : Instr) : decode (encode i) = .command i := by
  rw [decode, encode, Cmd.ofWord_toWord, decodeFields_toCmd]

/-- What the decoder answers keeps the word's fields. -/
theorem decode_toCmd (w : CmdWord) : (decode w).toCmd = Cmd.ofWord w := by
  rcases decode_cases w with ⟨i, hd, hw, -⟩ | ⟨hd, -⟩ <;> rw [hd]
  · exact hw
  · rfl

/-- Settles O1: fields and word are inverse to each other, and the decoder keeps the fields. -/
theorem decodeAndEncodeAgree : Obligations.DecodeAndEncodeAgree :=
  ⟨decode_encode, fun w => by rw [decode_toCmd, Cmd.toWord_ofWord], fun _ => Cmd.ofWord_toWord, fun _ => Cmd.toWord_ofWord⟩

/-- Settles O2, by evaluating the decoder on each word. -/
theorem knownWordsDecode : Obligations.KnownWordsDecode := by
  unfold Obligations.KnownWordsDecode
  decide

/-! The low four bits (30_encoding.md R74, R77, R78). -/

theorem setWidth_opcode_toNat (op : Opcode) : (op.setWidth Config.hse.cmdW).toNat = op.toNat :=
  BitVec.toNat_setWidth_of_le (by decide)

/-- The low four bits of a word are the field `OP`, with zeros above. -/
theorem and_fifteen_eq_op (w : CmdWord) : w &&& 0xF = (Cmd.ofWord w : Cmd Config.hse).op.setWidth Config.hse.cmdW := by
  have hmask : (0xF : CmdWord).toNat = 2 ^ 4 - 1 :=
    (BitVec.toNat_ofNat ..).trans <|
      Nat.mod_eq_of_lt ((by decide : 15 < 2 ^ 4).trans_le (Nat.pow_le_pow_right Nat.two_pos (by decide)))
  refine BitVec.eq_of_toNat_eq ?_
  rw [setWidth_opcode_toNat, BitVec.toNat_and, hmask, Nat.and_two_pow_sub_one_eq_mod]
  simp [Cmd.ofWord]

/-- The opcode of a decoded command is the word's field `OP`. -/
theorem opcode_of_decode (w : CmdWord) (i : Instr) (h : decode w = .command i) :
    i.opcode = (Cmd.ofWord w : Cmd Config.hse).op := by
  have hc := decode_toCmd w
  rw [h] at hc
  exact congrArg Cmd.op hc

theorem and_fifteen_of_decode (w : CmdWord) (i : Instr) (h : decode w = .command i) :
    w &&& 0xF = i.opcode.setWidth Config.hse.cmdW := by
  rw [and_fifteen_eq_op, opcode_of_decode w i h]

/-- The rejected words are those whose field `OP` is 7 or more (30_encoding.md R77). -/
theorem decode_reserved_iff (w : CmdWord) :
    (∃ cmd, decode w = .reservedOpcode cmd) ↔ 7 ≤ (Cmd.ofWord w : Cmd Config.hse).op.toNat := by
  rcases decode_cases w with ⟨i, hd, -, h7⟩ | ⟨hd, h7⟩
  · simp [hd, h7]
  · simp [hd, h7]

/-- Settles O3: the low four bits are the field `OP`, by which alone the decoder chooses. -/
theorem opcodeAloneSelectsTheCommand : Obligations.OpcodeAloneSelectsTheCommand := by
  refine ⟨and_fifteen_of_decode, fun w => ?_, fun w v i j hw hv => ?_⟩
  · rw [decode_reserved_iff, and_fifteen_eq_op, setWidth_opcode_toNat]
  · rw [and_fifteen_of_decode w i hw, and_fifteen_of_decode v j hv]
    refine ⟨fun h => BitVec.eq_of_toNat_eq ?_, fun h => by rw [h]⟩
    rw [← setWidth_opcode_toNat, h, setWidth_opcode_toNat]

namespace Machine

/-! Unused fields (30_encoding.md R75). -/

/-- The phase check uses the command only for the error entry: with another `SYM` it does the same, but for `ERRSYM` where it
enters ERROR. -/
theorem Hse.legalIn_other_sym {c : Config} (p : Phase) (cmd cmd' : Cmd c) (f : Hse c → Hse c) (h : Hse c) (hop : cmd'.op = cmd.op)
    (hf : h.state = p → (f h).state ≠ .error) :
    h.legalIn p cmd' f = if h.state ≠ .error ∧ (h.legalIn p cmd f).state = .error
      then { h.legalIn p cmd f with errsym := cmd'.sym } else h.legalIn p cmd f := by
  by_cases he : h.state = .error
  · rw [if_neg fun hc => hc.1 he, Hse.legalIn_error p cmd f h he, Hse.legalIn_error p cmd' f h he]
  · by_cases hs : h.state = p
    · rw [Hse.legalIn_same p cmd f h hs (hs ▸ he), Hse.legalIn_same p cmd' f h hs (hs ▸ he), if_neg fun hc => hf hs hc.2]
    · rw [Hse.legalIn_other p cmd f h he hs, Hse.legalIn_other p cmd' f h he hs, if_pos ⟨he, rfl⟩]
      simp [Hse.raise, hop]

/-- `CLRT`, `START` and `END` are a phase check and an effect that reads no field and raises no error. -/
theorem effect_other_fields (mk : Sym → Len → Code → Instr) (hmk : mk = .clrt ∨ mk = .start ∨ mk = .endStream)
    (sym sym' : Sym) (len len' : Len) (code code' : Code) (h : Hse Config.hse) :
    effect (mk sym' len' code') h = if h.state ≠ .error ∧ (effect (mk sym len code) h).state = .error
      then { effect (mk sym len code) h with errsym := sym' } else effect (mk sym len code) h := by
  rcases hmk with rfl | rfl | rfl
  · exact Hse.legalIn_other_sym .idle ⟨0x1, sym, len, code⟩ ⟨0x1, sym', len', code'⟩ _ h rfl (by simp +contextual)
  · exact Hse.legalIn_other_sym .idle ⟨0x3, sym, len, code⟩ ⟨0x3, sym', len', code'⟩ _ h rfl (by simp)
  · exact Hse.legalIn_other_sym .active ⟨0x5, sym, len, code⟩ ⟨0x5, sym', len', code'⟩ _ h rfl (by simp)

/-- Every line but a raw word assembles to a command with zeros in its unused fields, in or out of range. -/
theorem AsmLine.assemble_canonical (line : AsmLine) :
    (∃ v, line = .word v) ∨ ∃ i : Instr, i.canonical = true ∧ line.assemble = encode i := by
  cases line with
  | word v => exact .inl ⟨v, rfl⟩
  | nop | clrt | load | start | push | endStream | abort => exact .inr ⟨_, rfl, rfl⟩

/-- Settles O4: the effects of `NOP`, `ABORT` and `PUSH` do not name the unused fields, those of `CLRT`, `START` and `END` only in
the error entry. -/
theorem unusedFieldsAreIgnored : Obligations.UnusedFieldsAreIgnored := by
  refine ⟨fun _ _ _ _ _ _ _ => rfl, fun _ _ _ _ _ _ _ => rfl, fun _ _ _ _ _ _ => rfl,
    fun mk hmk sym sym' len len' code code' s => ⟨_, exec_eq _ s, ?_⟩, fun line _ => line.assemble_canonical⟩
  rw [exec_eq, State.onBlock, effect_other_fields mk hmk sym sym' len len' code code' s.hse, State.onBlock]
  split <;> rfl

end Machine

end Sys2Proof

/-! PROOFS. One `encode` call (O52): the host's table has a codeword for every symbol of the input, its `LOAD`s make the block look up
these codewords, and a program that ends in a completed stream leaves the host with its result. -/

namespace Sys2Proof.Machine

/-! The host's table covers the input (43_host_side_pipeline.md R131 to R140). -/

/-- R132: the symbols of the FrequencyTable are those of the input. -/
theorem mem_countFrequencies_symbols (x : Sym) (input : List Sym) :
    x ∈ (countFrequencies input).map Prod.fst ↔ x ∈ input := by
  have hadd : ∀ (y : Sym) (t : FrequencyTable), x ∈ (addOccurrence y t).map Prod.fst ↔ x ∈ t.map Prod.fst ∨ x = y := by
    intro y t
    rw [addOccurrence_symbols]
    split
    · next hy => exact ⟨.inl, fun h => h.elim id fun hx => hx ▸ hy⟩
    · rw [List.mem_append, List.mem_singleton]
  have hfold : ∀ t : FrequencyTable,
      x ∈ (input.foldl (fun t y => addOccurrence y t) t).map Prod.fst ↔ x ∈ t.map Prod.fst ∨ x ∈ input := by
    induction input with
    | nil => simp
    | cons y ys ih => intro t; rw [List.foldl_cons, ih, hadd, List.mem_cons, or_assoc]
  exact (hfold []).trans (by simp)

/-- HuffmanTreeBuilder fails on the empty table only (R133). -/
theorem buildTree_answers (ch : BuildChoices) (t : FrequencyTable) (h : t ≠ []) : ∃ root, buildTree ch t = .ok root := by
  cases t with
  | nil => exact absurd rfl h
  | cons e t => exact ⟨_, rfl⟩

theorem codeTableOf_answers (ch : BuildChoices) (input : List Sym) (h : input ≠ []) :
    ∃ t, codeTableOf ch input = .ok t := by
  obtain ⟨x, hx⟩ := List.exists_mem_of_ne_nil input h
  have hcount : countFrequencies input ≠ [] := fun h0 => by
    have hmem := (mem_countFrequencies_symbols x input).mpr hx
    rw [h0] at hmem
    cases hmem
  obtain ⟨root, hroot⟩ := buildTree_answers ch (ch.freqOrder (countFrequencies input)) fun h0 =>
    hcount ((h0 ▸ ch.freqOrder_perm (countFrequencies input)).nil_eq.symm)
  exact ⟨buildCodeTable ch root, by rw [codeTableOf, hroot]⟩

theorem mem_codeTableOf_symbols (ch : BuildChoices) (input : List Sym) (t : CodeTable) (h : codeTableOf ch input = .ok t)
    (x : Sym) : x ∈ t.map Prod.fst ↔ x ∈ input :=
  (codeTableOf_symbols ch input t h).mem_iff.trans (mem_countFrequencies_symbols x input)

/-- The traversal only adds bits to those accumulated (R139). -/
theorem TreeNode.codewords_length_ge (ch : BuildChoices) (t : TreeNode) (acc : Bits) :
    ∀ e ∈ t.codewords ch acc, acc.length ≤ e.2.length := by
  induction t generalizing acc with
  | leaf s n => simp [TreeNode.codewords]
  | node f l r ihl ihr =>
    intro e he
    rcases List.mem_append.mp he with he | he
    · exact (List.length_append ▸ Nat.le_add_right ..).trans (ihl _ e he)
    · exact (List.length_append ▸ Nat.le_add_right ..).trans (ihr _ e he)

/-- R139, R140: below an inner root every leaf has the bit of its branch, and a lone leaf has one bit. -/
theorem buildCodeTable_codeword_pos (ch : BuildChoices) (t : TreeNode) : ∀ e ∈ buildCodeTable ch t, 1 ≤ e.2.length := by
  cases t with
  | leaf s n => simp [buildCodeTable]
  | node f l r =>
    intro e he
    rcases List.mem_append.mp he with he | he
    · exact l.codewords_length_ge ch _ e he
    · exact r.codewords_length_ge ch _ e he

theorem codeTableOf_codeword_pos (ch : BuildChoices) (input : List Sym) (t : CodeTable) (h : codeTableOf ch input = .ok t) :
    ∀ e ∈ t, 1 ≤ e.2.length := by
  obtain ⟨root, rfl, -⟩ := codeTableOf_ok ch input t h
  exact buildCodeTable_codeword_pos ch root

/-! The table as a function. -/

theorem CodeTable.mem_of_code? (t : CodeTable) (x : Sym) (q : Bits) (h : t.code? x = some q) : (x, q) ∈ t := by
  induction t with
  | nil => cases h
  | cons e t ih =>
    rw [CodeTable.code?] at h
    split at h
    · next hx => cases h; simp [hx]
    · exact List.mem_cons_of_mem _ (ih h)

theorem CodeTable.code?_eq_some_iff (t : CodeTable) (hn : (t.map Prod.fst).Nodup) (x : Sym) (q : Bits) :
    t.code? x = some q ↔ (x, q) ∈ t :=
  ⟨t.mem_of_code? x q, t.code?_of_mem hn (x, q)⟩

theorem CodeTable.code?_eq_none_of_not_mem (t : CodeTable) (x : Sym) (hx : x ∉ t.map Prod.fst) : t.code? x = none :=
  Option.eq_none_iff_forall_ne_some.mpr fun q hq => hx (List.mem_map_of_mem (t.mem_of_code? x q hq))

/-- The order in which the host lists its entries makes no difference to a symbol's codeword. -/
theorem CodeTable.code?_perm (t u : CodeTable) (hp : t.Perm u) (hn : (u.map Prod.fst).Nodup) (x : Sym) :
    t.code? x = u.code? x := by
  have hnt : (t.map Prod.fst).Nodup := (hp.map Prod.fst).nodup_iff.mpr hn
  exact Option.ext fun q => by rw [t.code?_eq_some_iff hnt, u.code?_eq_some_iff hn, hp.mem_iff]

/-- The Encoder's function is total on the symbols of its table. -/
theorem CodeTable.encode_answers (t : CodeTable) (hn : (t.map Prod.fst).Nodup) (xs : List Sym)
    (hxs : ∀ x ∈ xs, x ∈ t.map Prod.fst) : ∃ bits, t.encode xs = .ok bits := by
  induction xs with
  | nil => exact ⟨[], rfl⟩
  | cons x xs ih =>
    obtain ⟨hx, htail⟩ := List.forall_mem_cons.mp hxs
    obtain ⟨e, he, rfl⟩ := List.mem_map.mp hx
    obtain ⟨rest, hrest⟩ := ih htail
    exact ⟨e.2 ++ rest, by rw [CodeTable.encode, t.code?_of_mem hn e he, hrest]⟩

/-- A block that looks up the host's codewords has the host's output (41_stream_commands.md R104). -/
theorem Hse.encoderOutput_eq_encode (t : CodeTable) (h : Hse Config.hse) (hlook : ∀ x, h.lookup x = t.code? x)
    (xs : List Sym) (bits : Bits) (hb : t.encode xs = .ok bits) : h.encoderOutput xs = some bits := by
  induction xs generalizing bits with
  | nil => cases hb; rfl
  | cons x xs ih =>
    rw [CodeTable.encode] at hb
    split at hb
    · cases hb
    · next q hq =>
      split at hb
      · cases hb
      · next rest hrest =>
        cases hb
        simp only [Hse.encoderOutput, hlook, hq, ih rest hrest]

/-! Loading the table (43_host_side_pipeline.md R143 step 4). -/

/-- The table's codewords have lengths that `LOAD` accepts (40_table_commands.md R91). -/
def CodeTable.lengthsOk (t : CodeTable) : Prop := ∀ e ∈ t, 1 ≤ e.2.length ∧ e.2.length ≤ 255

theorem codeTableOf_lengthsOk (ch : BuildChoices) (input : List Sym) (t : CodeTable) (h : codeTableOf ch input = .ok t) :
    t.lengthsOk :=
  fun e he => ⟨codeTableOf_codeword_pos ch input t h e he, (codeTableOf_codeword_fits ch input t h).2 e he⟩

/-- The `LOAD` of a codeword of legal length in IDLE. -/
theorem effect_loadBits_idle (sym : Sym) (bits : Bits) (h : Hse Config.hse) (hi : h.state = .idle) (hlow : 1 ≤ bits.length)
    (hhigh : bits.length ≤ 255) : effect (loadBits sym bits) h = h.setEntry sym (Cmd.entry (loadBits sym bits).toCmd) :=
  effect_load_idle _ _ _ h hi (hlow.trans_eq (loadBits_len sym bits hhigh).symm)

/-- `LOAD`s of distinct symbols change nothing but the table, where each symbol loaded gets its codeword. -/
theorem runWords_loads (order : CodeTable) (h : Hse Config.hse) (hi : h.state = .idle) (hn : h.shn = 0)
    (hlen : order.lengthsOk) (hnodup : (order.map Prod.fst).Nodup) :
    ∃ t : Table Config.hse, Hse.runWords ((order.map fun e => loadBits e.1 e.2).map encode) h = { h with table := t } ∧
      ∀ x, ({ h with table := t } : Hse Config.hse).lookup x = (order.code? x).or (h.lookup x) := by
  induction order generalizing h with
  | nil => exact ⟨h.table, Hse.drain_of_shn_zero h hn, fun x => rfl⟩
  | cons e order ih =>
    obtain ⟨⟨hlow, hhigh⟩, hlens⟩ := List.forall_mem_cons.mp hlen
    obtain ⟨hfresh, hnodup⟩ := List.nodup_cons.mp hnodup
    obtain ⟨t, hrun, hlook⟩ := ih (h.setEntry e.1 (Cmd.entry (loadBits e.1 e.2).toCmd)) hi hn hlens hnodup
    refine ⟨t, ?_, fun x => (hlook x).trans ?_⟩
    · rw [List.map_cons, runWords_encode_cons _ _ h hn, effect_loadBits_idle e.1 e.2 h hi hlow hhigh]
      exact hrun
    · by_cases hx : x = e.1
      · rw [hx, CodeTable.code?_eq_none_of_not_mem order e.1 hfresh, lookup_load e.1 e.2 h hlow hhigh]
        simp [CodeTable.code?]
      · rw [Hse.lookup_setEntry_other h e.1 x _ hx]
        simp [CodeTable.code?, hx]

/-- R143 step 4: the load commands change nothing but the table, and make the block look up the host's codewords. -/
theorem runWords_loadCommands (table order : CodeTable) (h : Hse Config.hse) (hi : h.state = .idle) (hn : h.shn = 0)
    (hlen : table.lengthsOk) (hnodup : (table.map Prod.fst).Nodup) (hp : order.Perm table) :
    ∃ t : Table Config.hse, Hse.runWords (order.loadCommands.map encode) h = { h with table := t } ∧
      ∀ x, ({ h with table := t } : Hse Config.hse).lookup x = table.code? x := by
  obtain ⟨t, hrun, hlook⟩ := runWords_loads order h.emptyTable hi hn (fun e he => hlen e (hp.mem_iff.mp he))
    ((hp.map Prod.fst).nodup_iff.mpr hnodup)
  refine ⟨t, ?_, fun x => (hlook x).trans ?_⟩
  · rw [CodeTable.loadCommands, runWords_encode_cons _ _ h hn, effect_clrt_idle 0 0 0 h hi]
    exact hrun
  · rw [Hse.lookup, Hse.entry_emptyTable, Entry.codeword_empty, Option.or_none, order.code?_perm table hp hnodup]

/-! The whole call on the transaction level. -/

theorem pushedSymbols_pushes (xs : List Sym) : pushedSymbols (xs.map fun x => .push x 0 0) = some xs := by
  induction xs with
  | nil => rfl
  | cons x xs ih => rw [List.map_cons, pushedSymbols, ih]; rfl

/-- R143 steps 4 and 5 from IDLE: the block in IDLE again, the host's output transferred since `START`. -/
theorem runWords_call (table order : CodeTable) (input : List Sym) (bits : Bits) (h : Hse Config.hse) (hi : h.state = .idle)
    (hn : h.shn = 0) (hlen : table.lengthsOk) (hnodup : (table.map Prod.fst).Nodup) (hp : order.Perm table)
    (hb : table.encode input = .ok bits) :
    ∃ (t : Table Config.hse) (sh : Code), Hse.runWords ((order.loadCommands ++ streamCommands input).map encode) h =
      (({ h with table := t } : Hse Config.hse).openStream.streamed input.length bits sh).closeStream := by
  obtain ⟨t, hrun, hlook⟩ := runWords_loadCommands table order h hi hn hlen hnodup hp
  obtain ⟨sh, hsh⟩ := runWords_stream (input.map fun x => .push x 0 0) input bits { h with table := t } 0 0 0 0 0 0 hi hn
    (pushedSymbols_pushes input) (Hse.encoderOutput_eq_encode table _ hlook input bits hb)
  exact ⟨t, sh, by rw [List.map_append, Hse.runWords_append, hrun, streamCommands, hsh]⟩

/-! The result of a program that ends in a completed stream (00_scope.md R17). -/

/-- `END` leaves the block in IDLE only from ACTIVE, where it closes the stream (41_stream_commands.md R102). -/
theorem effect_endStream_idle (sym : Sym) (len : Len) (code : Code) (h : Hse Config.hse)
    (hi : (effect (.endStream sym len code) h).state = .idle) :
    h.state = .active ∧ effect (.endStream sym len code) h = h.closeStream := by
  rw [effect_endStream] at hi ⊢
  rcases h.legalIn_cases .active ⟨0x5, sym, len, code⟩ Hse.closeStream with ⟨hs, he⟩ | ⟨-, hs, he⟩ | ⟨-, -, he⟩
  · rw [he, hs] at hi; cases hi
  · exact ⟨hs, he⟩
  · rw [he] at hi; cases hi

/-- An accepted `END` that closes the open stream gives the host its result. -/
theorem resultAfter_endStream (sym : Sym) (len : Len) (code : Code) (h k : Hse Config.hse) (held : Option Bits)
    (ha : h.state = .active) (hk : k.state = .idle) :
    resultAfter (Hse.streamEnd (.accept (encode (.endStream sym len code))) k h) k.state held = some h.sinceStart := by
  have hop : (Cmd.ofWord (encode (.endStream sym len code)) : Cmd Config.hse).op = 0x5 :=
    congrArg Cmd.op (Cmd.ofWord_toWord (Instr.endStream sym len code).toCmd)
  simp only [Hse.streamEnd, ha, hk, hop]
  rfl

/-- No reset comes, and either an `END` is the last command still to come and the block `b` the program's outcome, or the program
has ended in `b` and the host holds the result of its stream. -/
def State.completes (b : Hse Config.hse) (s : State) (held : Option Bits) : Prop :=
  s.resetFree ∧
    ((s.outcome = b ∧ ∃ ws sym len code, s.cmds = ws ++ [encode (.endStream sym len code)]) ∨
      (s.cmds = [] ∧ s.hse = b ∧ b.shn = 0 ∧ held = some b.sinceStart))

/-- The edge that accepts the `END` completes the stream: the outcome would not be in IDLE otherwise. -/
theorem ended_of_accept_endStream (b : Hse Config.hse) (hb : b.state = .idle) (s t : State) (sym : Sym) (len : Len) (code : Code)
    (held : Option Bits) (ht : step s = .next t) (he : s.event = .accept (encode (.endStream sym len code)))
    (hc : s.cmds = [encode (.endStream sym len code)]) (hout : t.outcome = b) :
    t.cmds = [] ∧ t.hse = b ∧ b.shn = 0 ∧
      resultAfter (Hse.streamEnd s.event t.hse s.hse) t.hse.state held = some b.sinceStart := by
  obtain ⟨hn, htc, hh⟩ := step_of_accept s t _ _ [] ht he hc
  have hidle : t.hse.state = .idle := by
    rw [State.outcome, htc, Hse.runWords, Hse.drain_eq] at hout
    exact (congrArg Hse.state hout).trans hb
  obtain ⟨ha, hclose⟩ := effect_endStream_idle sym len code s.hse (hh ▸ hidle)
  have htn : t.hse.shn = 0 := by rw [hh, hclose, Hse.closeStream_shn, hn]
  obtain rfl : t.hse = b := (outcome_of_finished t ⟨htc, htn⟩).symm.trans hout
  refine ⟨htc, rfl, htn, ?_⟩
  rw [he, resultAfter_endStream sym len code s.hse t.hse held ha hidle, hh, hclose]
  rfl

/-- A machine whose program has ended in IDLE stays as it is. -/
theorem step_of_ended (s t : State) (held : Option Bits) (hf : s.resetFree) (ht : step s = .next t) (hc : s.cmds = [])
    (hn : s.hse.shn = 0) (hi : s.hse.state = .idle) :
    t.cmds = [] ∧ t.hse = s.hse ∧ resultAfter (Hse.streamEnd s.event t.hse s.hse) t.hse.state held = held := by
  rcases step_next_cases s t ht with ⟨he, -⟩ | ⟨-, hn', -⟩ | ⟨w, rest, -, -, hs, -⟩ | ⟨-, rfl⟩
  · exact absurd ((State.event_reset_iff s).mp he) (by simp [s.resetFree_now hf])
  · exact absurd hn hn'
  · rw [hc] at hs; cases hs
  · exact ⟨hc, rfl, by simp [Hse.streamEnd, hi]⟩

theorem completes_step (b : Hse Config.hse) (hb : b.state = .idle) (s t : State) (held : Option Bits)
    (hs : s.completes b held) (ht : step s = .next t) :
    t.completes b (resultAfter (Hse.streamEnd s.event t.hse s.hse) t.hse.state held) := by
  obtain ⟨hf, ⟨hout, ws, sym, len, code, hc⟩ | ⟨hc, rfl, hn, hheld⟩⟩ := hs
  · have htout : t.outcome = b := (outcome_step s t (s.resetFree_now hf) ht).trans hout
    refine ⟨s.resetFree_step t hf ht, ?_⟩
    by_cases hno : ∀ w, s.event ≠ .accept w
    · exact .inl ⟨htout, ws, sym, len, code, (step_of_not_accept s t ht hno).1.trans hc⟩
    · push Not at hno
      obtain ⟨w, he⟩ := hno
      obtain ⟨-, hw, -⟩ := step_of_accept_word s t w ht he
      rw [hc] at hw
      cases ws with
      | nil =>
        obtain ⟨rfl, -⟩ := List.cons.inj hw
        exact .inr (ended_of_accept_endStream b hb s t sym len code held ht he hc htout)
      | cons v ws => exact .inl ⟨htout, ws, sym, len, code, (List.cons.inj hw).2.symm⟩
  · obtain ⟨htc, hh, hres⟩ := step_of_ended s t held hf ht hc hn hb
    exact ⟨s.resetFree_step t hf ht, .inr ⟨htc, hh, hn, hres.trans hheld⟩⟩

/-- A program whose last command is `END` and whose outcome is in IDLE ends in that outcome, under any schedule without a reset, and
the host then holds the bits transferred since `START`, whatever it held before. -/
theorem completed_of_run (k : Nat) (s t : State) (ws : List CmdWord) (sym : Sym) (len : Len) (code : Code) (held : Option Bits)
    (hf : s.resetFree) (hc : s.cmds = ws ++ [encode (.endStream sym len code)]) (hi : s.outcome.state = .idle)
    (hrun : Host.Core.run Sys2Proof.core k s = .next t) (ht : t.cmds = []) :
    t.hse = s.outcome ∧ latestResult k held s = some t.hse.sinceStart := by
  obtain ⟨-, ⟨-, ws', sym', len', code', hc'⟩ | ⟨-, hh, -, hheld⟩⟩ :=
    latestResult_keeps (State.completes s.outcome) (completes_step s.outcome hi) k s t held
      ⟨hf, .inl ⟨rfl, ws, sym, len, code, hc⟩⟩ hrun
  · simp [ht] at hc'
  · exact ⟨hh, hh ▸ hheld⟩

/-- The last command of a call is `END`. -/
theorem call_words_endStream (order : CodeTable) (input : List Sym) :
    ∃ ws, (order.loadCommands ++ streamCommands input).map encode = ws ++ [encode (.endStream 0 0 0)] :=
  ⟨_, by rw [streamCommands, ← List.append_assoc, List.map_append, List.map_singleton]⟩

/-- Settles O52: the transaction level gives the call's outcome, a completed stream, and the host reads it in IDLE. -/
theorem encodeCallGivesTheEncodedOutput : Obligations.EncodeCallGivesTheEncodedOutput := by
  intro ch input hinput
  obtain ⟨table, htable⟩ := codeTableOf_answers ch input hinput
  have hnodup := codeTableOf_nodup ch input table htable
  obtain ⟨bits, hbits⟩ := table.encode_answers hnodup input fun x hx =>
    (mem_codeTableOf_symbols ch input table htable x).mpr hx
  refine ⟨table, (ch.loadOrder table).loadCommands ++ streamCommands input, bits, by rw [encodeCall, htable], hbits, ?_⟩
  intro k s t hf hi he hn hc hrun ht
  obtain ⟨tab, sh, hout⟩ := runWords_call table (ch.loadOrder table) input bits s.hse hi hn
    (codeTableOf_lengthsOk ch input table htable) hnodup (ch.loadOrder_perm table) hbits
  rw [← hc] at hout
  obtain ⟨ws, hws⟩ := call_words_endStream (ch.loadOrder table) input
  have hrest := fun held => completed_of_run k s t ws 0 0 0 held hf (hc.trans hws)
    (by rw [State.outcome, hout]; rfl) hrun ht
  have hh := (hrest none).1.trans hout
  have hidle : t.hse.state = .idle := by rw [hh]; rfl
  have herr : t.hse.err = .none := by rw [hh]; exact he
  have hsince : t.hse.sinceStart = bits := by simp [hh, Hse.sinceStart]
  refine ⟨hidle, herr, hsince, by simp [hh], by simp [hh], fun held => ?_⟩
  rw [State.result_eq_some, (hrest held).2, hsince]
  exact ⟨ht, readResult_idle_held table bits t.hse hidle herr⟩

end Sys2Proof.Machine

/-! PROOFS. The table commands: the next state of `CLRT` and `LOAD` in every phase (O7, O8), and that the order of a table's `LOAD`s
makes no difference (O53). -/

namespace Sys2Proof.Machine

/-! `CLRT` and `LOAD` outside IDLE (10_state.md R22, 60_exceptions.md R154, R162). -/

/-- `CLRT` and `LOAD` in ACTIVE: BAD_SEQUENCE, before any other check (60_exceptions.md R158). -/
theorem effect_tableCommand_active (i : Instr) (sym : Sym) (len : Len) (code : Code) (h : Hse Config.hse)
    (hi : i = .clrt sym len code ∨ i = .load sym len code) (ha : h.state = .active) :
    effect i h = h.raise .badSequence i.toCmd := by
  have hne : h.state ≠ .error := by simp [ha]
  have hni : h.state ≠ .idle := by simp [ha]
  rcases hi with rfl | rfl
  · rw [effect_clrt, Hse.legalIn_other _ _ _ h hne hni, toCmd_clrt]
  · rw [effect_load, Hse.legalIn_other _ _ _ h hne hni, toCmd_load]

theorem effect_tableCommand_error (i : Instr) (sym : Sym) (len : Len) (code : Code) (h : Hse Config.hse)
    (hi : i = .clrt sym len code ∨ i = .load sym len code) (he : h.state = .error) : effect i h = h := by
  rcases hi with rfl | rfl
  · rw [effect_clrt, Hse.legalIn_error _ _ _ h he]
  · rw [effect_load, Hse.legalIn_error _ _ _ h he]

/-- Settles O7: the phase decides between the three outcomes, and an emptied table reads the empty entry everywhere. -/
theorem clrtEmptiesTheTable : Obligations.ClrtEmptiesTheTable := by
  refine ⟨fun sym len code s => ?_, fun sym len code s t hi ht r => ?_, by decide +kernel⟩
  · rw [exec_eq, State.onBlock]
    cases hs : s.hse.state with
    | idle => rw [effect_clrt_idle sym len code s.hse hs]; rfl
    | active => rw [effect_tableCommand_active _ sym len code s.hse (.inl rfl) hs]; rfl
    | error => rw [effect_tableCommand_error _ sym len code s.hse (.inl rfl) hs]
  · rw [exec_eq, Host.Outcome.next.injEq] at ht
    rw [← ht, State.onBlock_hse, effect_clrt_idle sym len code s.hse hi, Hse.lookup, Hse.entry_emptyTable]
    exact ⟨rfl, rfl, Entry.codeword_empty⟩

/-! `LOAD` in IDLE (40_table_commands.md R91). -/

theorem effect_load_idle_badLength (sym : Sym) (len : Len) (code : Code) (h : Hse Config.hse) (hi : h.state = .idle)
    (hl : ¬ 1 ≤ len.toNat) : effect (.load sym len code) h = h.raise .badLength (Instr.load sym len code).toCmd := by
  have hno : ¬ lengthOk Config.hse len = true := fun hok => hl ((lengthOk_iff len).mp hok).1
  exact (Hse.loadEntry_idle (Instr.load sym len code).toCmd h hi).trans (if_neg hno)

/-- The entry written is the one read at its symbol, whatever the table was. -/
theorem Hse.entry_setEntry_cmd {c : Config} (cmd : Cmd c) (h : Hse c) (hl : 1 ≤ cmd.len.toNat) (r : BitVec c.symW) :
    (h.setEntry cmd.sym (Cmd.entry cmd)).entry r = if r = cmd.sym then Cmd.entry cmd else h.entry r := by
  split
  · next hr =>
    have hne : Cmd.entry cmd ≠ Entry.empty c := fun h0 => by
      have hlen : cmd.len = 0 := congrArg Entry.len h0
      simp [hlen] at hl
    rw [hr, Hse.entry_setEntry_same h cmd.sym _ hne]
  · next hr => exact Hse.entry_setEntry_other h cmd.sym r _ hr

/-- Settles O8: the phase and, in IDLE, the length decide between the outcomes; the entry written is read at its symbol only; and
the word is the encoding function's on numbers (30_encoding.md R76). -/
theorem loadWritesOneEntry : Obligations.LoadWritesOneEntry := by
  refine ⟨fun sym len code s => ?_, fun sym len code s t hi hlow _ ht r => ?_, fun sym len code => ?_⟩
  · have hhigh : len.toNat ≤ 255 := Nat.le_of_lt_succ len.isLt
    rw [exec_eq, State.onBlock]
    cases hs : s.hse.state with
    | idle =>
      by_cases hlow : 1 ≤ len.toNat
      · rw [effect_load_idle sym len code s.hse hs hlow]
        simp only [if_pos (And.intro hlow hhigh)]
        rfl
      · rw [effect_load_idle_badLength sym len code s.hse hs hlow]
        simp only [hlow, false_and, if_false]
        rfl
    | active => rw [effect_tableCommand_active _ sym len code s.hse (.inr rfl) hs]; rfl
    | error => rw [effect_tableCommand_error _ sym len code s.hse (.inr rfl) hs]
  · rw [exec_eq, Host.Outcome.next.injEq] at ht
    rw [← ht, State.onBlock_hse, effect_load_idle sym len code s.hse hi hlow]
    exact Hse.entry_setEntry_cmd (Instr.load sym len code).toCmd s.hse hlow r
  · exact toWord_eq_ofNat (Instr.load sym len code).toCmd

/-! A table is what its lookups say (10_state.md R29, R34; 20_memory.md R56). -/

section
variable {c : Config}

/-- The codeword an entry holds, the empty sequence where it holds none. -/
theorem Entry.codeword_getD (e : Entry c) : e.codeword.getD [] = seqBits e.len.toNat e.code := by
  by_cases hl : e.len = 0
  · rw [(Entry.codeword_none e).mpr hl, hl]
    rfl
  · rw [Entry.codeword_some e hl, Option.getD_some]

/-- Entries without a bit at or above `LEN` that hold the same codeword are the same entry: the codeword's length is `LEN` and its
value `CODE`. -/
theorem Entry.eq_of_codeword (e f : Entry c) (he : Entry.ok e) (hf : Entry.ok f) (h : e.codeword = f.codeword) : e = f := by
  have hbits : seqBits e.len.toNat e.code = seqBits f.len.toNat f.code := by
    rw [← e.codeword_getD, h, f.codeword_getD]
  have hlen : e.len.toNat = f.len.toNat := by simpa using congrArg List.length hbits
  have hcode : e.code.toNat = f.code.toNat := by
    simpa [val_seqBits, Nat.mod_eq_of_lt he.2, Nat.mod_eq_of_lt hf.2] using congrArg Bits.val hbits
  exact congrArg₂ Entry.mk (BitVec.eq_of_toNat_eq hlen) (BitVec.eq_of_toNat_eq hcode)

/-- A canonical table lists no address beyond the symbols (20_memory.md R51). -/
theorem Table.read_of_nEnt_le (t : Table c) (ht : Table.wf t) (a : Nat) (ha : c.nEnt ≤ a) :
    Table.read t a = Entry.empty c :=
  Table.read_unlisted t a fun cell hm => Nat.ne_of_lt (Nat.lt_of_lt_of_le (ht.2 cell hm).1 ha)

/-- Blocks whose tables meet R34 item 3 and that look up the same codewords hold the same table. -/
theorem Hse.table_eq_of_lookup (h k : Hse c) (hh : h.tableOk) (hk : k.tableOk) (hlook : ∀ x, h.lookup x = k.lookup x) :
    h.table = k.table := by
  refine Table.eq_of_read _ _ hh.1 hk.1 fun a => ?_
  rcases Nat.lt_or_ge a c.nEnt with ha | ha
  · exact Entry.eq_of_codeword _ _ (h.entry_ok hh ⟨a, ha⟩) (k.entry_ok hk ⟨a, ha⟩) (hlook ⟨a, ha⟩)
  · rw [Table.read_of_nEnt_le _ hh.1 a ha, Table.read_of_nEnt_le _ hk.1 a ha]

theorem Hse.setEntry_tableOk (sym : BitVec c.symW) (e : Entry c) (h : Hse c) (hh : h.tableOk) (he : Entry.ok e) :
    (h.setEntry sym e).tableOk := by
  refine ⟨h.setEntry_wf hh.1 sym e, fun cell hm => ?_⟩
  rcases Table.mem_write _ _ _ cell hm with hold | ⟨rfl, -⟩
  · exact hh.2 cell hold
  · exact he

end

/-! The order of the `LOAD`s (43_host_side_pipeline.md R143 step 4). -/

theorem loadBits_entry_ok (sym : Sym) (bits : Bits) (hlow : 1 ≤ bits.length) (hhigh : bits.length ≤ 255) :
    Entry.ok (Cmd.entry (loadBits sym bits).toCmd) :=
  Cmd.entry_ok _ ((lengthOk_iff _).mpr (by rw [loadBits_len sym bits hhigh]; exact ⟨hlow, hhigh⟩))

theorem runWords_loads_tableOk (order : CodeTable) (h : Hse Config.hse) (hi : h.state = .idle) (hn : h.shn = 0)
    (hlen : order.lengthsOk) (hh : h.tableOk) :
    (Hse.runWords ((order.map fun e => loadBits e.1 e.2).map encode) h).tableOk := by
  induction order generalizing h with
  | nil => rwa [List.map_nil, List.map_nil, Hse.runWords, Hse.drain_of_shn_zero h hn]
  | cons e order ih =>
    obtain ⟨⟨hlow, hhigh⟩, hlens⟩ := List.forall_mem_cons.mp hlen
    rw [List.map_cons, runWords_encode_cons _ _ h hn, effect_loadBits_idle e.1 e.2 h hi hlow hhigh]
    exact ih _ hi hn hlens (h.setEntry_tableOk e.1 _ hh (loadBits_entry_ok e.1 e.2 hlow hhigh))

/-- The load commands leave a table that meets R34 item 3, whatever the table was: `CLRT` comes first. -/
theorem runWords_loadCommands_tableOk (order : CodeTable) (h : Hse Config.hse) (hi : h.state = .idle) (hn : h.shn = 0)
    (hlen : order.lengthsOk) : (Hse.runWords (order.loadCommands.map encode) h).tableOk := by
  rw [CodeTable.loadCommands, runWords_encode_cons _ _ h hn, effect_clrt_idle 0 0 0 h hi]
  exact runWords_loads_tableOk order h.emptyTable hi hn hlen ⟨Table.nil_wf, by simp⟩

/-- Settles O53: either order makes the block look up the host's codewords, and these determine the table. -/
theorem everyHostTableLoadsInAnyOrder : Obligations.EveryHostTableLoadsInAnyOrder := by
  intro ch input table order h htable hp hi hn
  have hlen := codeTableOf_lengthsOk ch input table htable
  have hnodup := codeTableOf_nodup ch input table htable
  have hlenOrder : order.lengthsOk := fun e he => hlen e (hp.mem_iff.mp he)
  obtain ⟨t, hrun, hlook⟩ := runWords_loadCommands table order h hi hn hlen hnodup hp
  obtain ⟨u, hrunTable, hlookTable⟩ := runWords_loadCommands table table h hi hn hlen hnodup (.refl table)
  have htu : t = u := Hse.table_eq_of_lookup { h with table := t } { h with table := u }
    (hrun ▸ runWords_loadCommands_tableOk order h hi hn hlenOrder)
    (hrunTable ▸ runWords_loadCommands_tableOk table h hi hn hlen)
    fun x => (hlook x).trans (hlookTable x).symm
  exact ⟨t, hrun, hlook, htu ▸ hrunTable⟩

end Sys2Proof.Machine

/-! PROOFS. A stream that fails (O48): the words up to the first symbol with no codeword stream the codewords before it, its `PUSH`
enters ERROR, and the words after it are discarded. -/

namespace Sys2Proof.Machine

/-- R162: in ERROR every command but `ABORT` is discarded. -/
theorem effect_error_of_ne_abort (i : Instr) (h : Hse Config.hse) (he : h.state = .error) (hi : i.opcode ≠ 0x6) :
    effect i h = h := by
  cases i with
  | nop => rfl
  | abort => exact absurd rfl hi
  | clrt sym len code => exact effect_tableCommand_error _ sym len code h (.inl rfl) he
  | load sym len code => exact effect_tableCommand_error _ sym len code h (.inr rfl) he
  | start | push | endStream => exact Hse.legalIn_error _ _ _ h he

/-- `PUSH` in ACTIVE, on a miss (41_stream_commands.md R101, 60_exceptions.md R152). -/
theorem effect_push_miss (sym : Sym) (len : Len) (code : Code) (h : Hse Config.hse) (ha : h.state = .active)
    (hq : h.lookup sym = none) : effect (.push sym len code) h = h.raise .missingCode ⟨0x4, sym, len, code⟩ := by
  rw [effect_push, Hse.legalIn_same _ _ _ _ ha (by simp)]
  exact Hse.pushActive_miss _ h hq

/-! The commands of the stream (41_stream_commands.md R104). -/

/-- `PUSH`es and `NOP`s, cut at the `PUSH` of one of the symbols pushed. -/
theorem pushedSymbols_split (items : List Instr) (ys zs : List Sym) (x : Sym)
    (hp : pushedSymbols items = some (ys ++ x :: zs)) :
    ∃ before len code after, items = before ++ .push x len code :: after ∧
      pushedSymbols before = some ys ∧ pushedSymbols after = some zs := by
  induction items generalizing ys with
  | nil => simp [pushedSymbols] at hp
  | cons i items ih =>
    cases i with
    | nop a b d =>
      obtain ⟨before, len, code, after, rfl, hys, hzs⟩ := ih ys hp
      exact ⟨.nop a b d :: before, len, code, after, rfl, hys, hzs⟩
    | push sym b d =>
      obtain ⟨pushed, hpushed, heq⟩ := Option.map_eq_some_iff.mp hp
      cases ys with
      | nil =>
        obtain ⟨rfl, rfl⟩ := List.cons.inj heq
        exact ⟨[], b, d, items, rfl, rfl, hpushed⟩
      | cons y ys =>
        obtain ⟨rfl, rfl⟩ := List.cons.inj heq
        obtain ⟨before, len, code, after, rfl, hys, hzs⟩ := ih ys hpushed
        exact ⟨.push sym b d :: before, len, code, after, rfl, by rw [pushedSymbols, hys]; rfl, hzs⟩
    | clrt | load | start | endStream | abort => cases hp

theorem not_abort_of_pushedSymbols (items : List Instr) (xs : List Sym) (hp : pushedSymbols items = some xs) :
    ∀ i ∈ items, i.opcode ≠ 0x6 := by
  induction items generalizing xs with
  | nil => simp
  | cons i items ih =>
    cases i with
    | nop => exact List.forall_mem_cons.mpr ⟨by simp [Instr.opcode], ih xs hp⟩
    | push =>
      obtain ⟨pushed, hpushed, -⟩ := Option.map_eq_some_iff.mp hp
      exact List.forall_mem_cons.mpr ⟨by simp [Instr.opcode], ih pushed hpushed⟩
    | clrt | load | start | endStream | abort => cases hp

/-- In ERROR the words of commands without an `ABORT` change nothing (60_exceptions.md R162). -/
theorem runWords_error (is : List Instr) (h : Hse Config.hse) (he : h.state = .error) (hn : h.shn = 0)
    (hi : ∀ i ∈ is, i.opcode ≠ 0x6) : Hse.runWords (is.map encode) h = h := by
  induction is with
  | nil => exact Hse.drain_of_shn_zero h hn
  | cons i is ih =>
    obtain ⟨hhead, htail⟩ := List.forall_mem_cons.mp hi
    rw [runWords_encode_cons i is h hn, effect_error_of_ne_abort i h he hhead, ih htail]

/-- A failing stream on the transaction level, from IDLE: the codewords before the first miss transferred, and the miss recorded. -/
theorem runWords_failingStream (items : List Instr) (ys zs : List Sym) (x : Sym) (bits : Bits) (h : Hse Config.hse)
    (a a' : Sym) (b b' : Len) (d d' : Code) (hi : h.state = .idle) (hn : h.shn = 0)
    (hp : pushedSymbols items = some (ys ++ x :: zs)) (hb : h.encoderOutput ys = some bits) (hx : h.lookup x = none) :
    ∃ sh len code, Hse.runWords ((Instr.start a b d :: items ++ [Instr.endStream a' b' d']).map encode) h =
      (h.openStream.streamed ys.length bits sh).raise .missingCode ⟨0x4, x, len, code⟩ := by
  obtain ⟨before, len, code, after, rfl, hys, hzs⟩ := pushedSymbols_split items ys zs x hp
  obtain ⟨sh, hsh⟩ := runWords_pushes before ys bits
    ((Instr.push x len code :: after ++ [Instr.endStream a' b' d']).map encode) h.openStream rfl hn hys
    ((Hse.encoderOutput_congr (Hse.openStream_table h) ys).trans hb)
  have hmiss := effect_push_miss x len code (h.openStream.streamed ys.length bits sh) rfl
    ((Hse.lookup_congr rfl x).trans hx)
  have hrest : ∀ i ∈ after ++ [Instr.endStream a' b' d'], i.opcode ≠ 0x6 :=
    List.forall_mem_append.mpr ⟨not_abort_of_pushedSymbols after zs hzs, by simp [Instr.opcode]⟩
  refine ⟨sh, len, code, ?_⟩
  rw [List.cons_append, runWords_encode_cons _ _ h hn, effect_start_idle a b d h hi, List.append_assoc, List.map_append, hsh,
    List.cons_append, runWords_encode_cons _ _ (h.openStream.streamed _ _ _) hn, hmiss]
  exact runWords_error _ _ rfl hn hrest

/-- A program whose outcome is not in ACTIVE has ended in it once its commands have been accepted: outside ACTIVE no bit is pending
(10_state.md R34 item 4). -/
theorem hse_eq_outcome_of_run (k : Nat) (s t : State) (hf : s.resetFree) (hn : s.hse.shn = 0)
    (hrun : Host.Core.run Sys2Proof.core k s = .next t) (ht : t.cmds = []) (ha : s.outcome.state ≠ .active) :
    t.hse = s.outcome := by
  have hdrain : t.hse.drain = s.outcome := by
    have hout := outcome_run k s t hf hrun
    rwa [State.outcome, ht] at hout
  have hactive : t.hse.shn ≠ 0 → t.hse.state = .active :=
    run_keeps (fun u => u.hse.shn ≠ 0 → u.hse.state = .active) (fun u v hu huv => shn_zero_or_active_step u v hu huv) k s t
      (fun h0 => absurd hn h0) hrun
  have hshn : t.hse.shn = 0 := by
    by_contra h0
    rw [← hdrain, Hse.drain_eq] at ha
    exact ha (hactive h0)
  rwa [Hse.drain_of_shn_zero _ hshn] at hdrain

/-- Settles O48: the outcome is the failing stream of the transaction level, and in ERROR no bit is pending. -/
theorem encoderContractOnAMissingCode : Obligations.EncoderContractOnAMissingCode := by
  intro k s t items ys zs x bits a a' b b' d d' hf hi hn hp hc hb hx hrun ht
  obtain ⟨sh, len, code, hfail⟩ := runWords_failingStream items ys zs x bits s.hse a a' b b' d d' hi hn hp hb hx
  rw [← hc] at hfail
  have hh := (hse_eq_outcome_of_run k s t hf hn hrun ht (by simp [State.outcome, hfail])).trans hfail
  simp [hh, Hse.sinceStart, hn]

end Sys2Proof.Machine

/-! PROOFS. The answer of an `encode` call (O55): it fails before any command exactly on an empty input, and otherwise answers the
Encoder's output exactly when its commands have been accepted. -/

namespace Sys2Proof.Machine

/-- A code table has a leaf, and so comes from an input that is not empty (43_host_side_pipeline.md R133). -/
theorem ne_nil_of_codeTableOf (ch : BuildChoices) (input : List Sym) (t : CodeTable) (h : codeTableOf ch input = .ok t) :
    input ≠ [] := by
  rintro rfl
  obtain ⟨root, -, hleaves⟩ := codeTableOf_ok ch [] t h
  have hpos := root.leaves_length_pos
  rw [hleaves.length_eq] at hpos
  exact absurd hpos (Nat.lt_irrefl 0)

/-- R133: on an empty input the call fails before any command. -/
theorem encodeOn_nil (ch : BuildChoices) (k : Nat) (s : State) : encodeOn ch [] k s = some .invalidInput := by
  rcases encodeOn_cases ch [] k s with ⟨-, hanswer⟩ | ⟨table, is, t, hcall, -⟩
  · exact hanswer
  · exact absurd rfl (ne_nil_of_codeTableOf ch [] table (encodeCall_ok ch [] table is hcall).1)

/-- The machine a call finds: the host has nothing else to issue, the block is in IDLE with no error and no bit pending. -/
def State.readyForCall (s : State) : Prop := s.cmds = [] ∧ s.hse.state = .idle ∧ s.hse.err = .none ∧ s.hse.shn = 0

/-- R143: the commands of a call on an input that is not empty, and its answer after any run of them. -/
theorem encodeOn_eq (ch : BuildChoices) (input : List Sym) (hinput : input ≠ []) :
    ∃ table is bits, codeTableOf ch input = .ok table ∧ table.encode input = .ok bits ∧
      ∀ (k : Nat) (s t : State), s.readyForCall → s.resetFree → Host.Core.run Sys2Proof.core k (s.issue is) = .next t →
        encodeOn ch input k s = if t.cmds = [] then some (.encoded table bits) else none := by
  obtain ⟨table, is, bits, hcall, hbits, hruns⟩ := encodeCallGivesTheEncodedOutput ch input hinput
  refine ⟨table, is, bits, (encodeCall_ok ch input table is hcall).1, hbits, ?_⟩
  rintro k s t ⟨hc, hi, he, hn⟩ hf hrun
  have hanswer : encodeOn ch input k s = t.result table (latestResult k none (s.issue is)) := by
    simp only [encodeOn, hcall, hrun]
  rw [hanswer]
  split
  · next ht =>
    obtain ⟨-, -, -, -, -, hresult⟩ := hruns k (s.issue is) t hf hi he hn (by simp [hc]) hrun ht
    exact hresult none
  · next ht => exact if_neg ht

/-- Settles O55: an input that is not empty is answered when the commands have been accepted, and a fair schedule accepts them. -/
theorem encodeCallAnswersItsCaller : Obligations.EncodeCallAnswersItsCaller := by
  intro ch input s hc hi he hn
  by_cases hinput : input = []
  · subst hinput
    refine ⟨fun _ k r hr => .inl ⟨rfl, ?_⟩, fun _ => ⟨0, by rw [encodeOn_nil]; rfl⟩⟩
    rw [encodeOn_nil] at hr
    exact (Option.some.inj hr).symm
  · obtain ⟨table, is, bits, htable, hbits, hanswer⟩ := encodeOn_eq ch input hinput
    refine ⟨fun hf k r hr => .inr ⟨hinput, table, bits, htable, hbits, ?_⟩, fun hfair => ?_⟩
    · obtain ⟨t, hrun⟩ := run_answers k (s.issue is)
      rw [hanswer k s t ⟨hc, hi, he, hn⟩ hf hrun, Option.ite_none_right_eq_some] at hr
      exact (Option.some.inj hr.2).symm
    · obtain ⟨k, t, hrun, hcmds, -⟩ := everyProgramRunsToItsEnd (s.issue is) hfair
      exact ⟨k, by rw [hanswer k s t ⟨hc, hi, he, hn⟩ (s.resetFree_of_fair hfair) hrun, if_pos hcmds]; rfl⟩

end Sys2Proof.Machine

/-! PROOFS. The emit steps (O30, O31): a run that accepts no command is some emit steps of the block, and a `PUSH` with its emit steps
is the atomic `PUSH`. -/

namespace Sys2Proof.Machine

theorem cmds_length_run (k : Nat) (s t : State) (hrun : Host.Core.run Sys2Proof.core k s = .next t) :
    t.cmds.length ≤ s.cmds.length :=
  run_keeps (fun u => u.cmds.length ≤ s.cmds.length) (fun u v hu huv => (cmds_length_step u v huv).trans hu) k s t
    (Nat.le_refl _) hrun

/-- A run without a reset that leaves the host's queue as it was has only moved pending bits: every edge of it transfers one or is
quiet (70_reset_and_hazards.md R186). -/
theorem emitTimes_of_run (k : Nat) (s t : State) (hf : s.resetFree) (hrun : Host.Core.run Sys2Proof.core k s = .next t)
    (hc : t.cmds = s.cmds) : ∃ n, n ≤ s.hse.shn.toNat ∧ t.hse = Hse.emitTimes n s.hse := by
  induction k generalizing s with
  | zero =>
    cases hrun
    exact ⟨0, Nat.zero_le _, rfl⟩
  | succ k ih =>
    obtain ⟨u, hu⟩ := step_answers s
    rw [run_succ k s u hu] at hrun
    have hlen := cmds_length_run k u t hrun
    have hrest := ih u (s.resetFree_step u hf hu) hrun
    rcases step_next_cases s u hu with ⟨he, -⟩ | ⟨-, hn, rfl⟩ | ⟨w, rest, -, -, hs, hr, -⟩ | ⟨-, rfl⟩
    · exact absurd ((State.event_reset_iff s).mp he) (by simp [s.resetFree_now hf])
    · obtain ⟨n, hle, hh⟩ := hrest hc
      have hpred : s.hse.emit.shn.toNat = s.hse.shn.toNat - 1 := s.hse.shn_pred hn
      have hpos : s.hse.shn.toNat ≠ 0 := fun h0 => hn (s.hse.shn_toNat_zero.mp h0)
      rw [State.takeTransfer_hse, hpred] at hle
      exact ⟨n + 1, by omega, hh⟩
    · rw [hr, hc, hs, List.length_cons] at hlen
      omega
    · exact hrest hc

/-- What `n` emit steps leave of the pending bits. -/
theorem Hse.emitTimes_shn {c : Config} (n : Nat) (h : Hse c) (hn : n ≤ h.shn.toNat) :
    (Hse.emitTimes n h).shn.toNat = h.shn.toNat - n := by
  have hlt : n < 2 ^ c.lenW := Nat.lt_of_le_of_lt hn h.shn.isLt
  have hmod : (BitVec.ofNat c.lenW n).toNat = n := by rw [BitVec.toNat_ofNat, Nat.mod_eq_of_lt hlt]
  rw [Hse.emitTimes_eq n h hn, BitVec.toNat_sub_of_le (by rw [BitVec.le_def, hmod]; exact hn), hmod]

/-- With a bit pending no command is accepted (70_reset_and_hazards.md R188). -/
theorem State.event_ne_accept (s : State) (hn : s.hse.shn ≠ 0) (w : CmdWord) : s.event ≠ .accept w := fun he =>
  hn ((State.event_accept_iff s w).mp he).2.1

/-- Settles O30: the transfer edge is one emit step, and a run that accepts no command is as many of them as bits have left. -/
theorem pendingBitsLeaveInOrder : Obligations.PendingBitsLeaveInOrder := by
  refine ⟨fun s hr hn hready => ?_, fun k s t hf hrun hc => ?_, fun s t _ hn ht => ?_⟩
  · rw [step, (State.event_transfer_iff s).mpr ⟨hr, hn, hready⟩]
    rfl
  · obtain ⟨n, hle, hh⟩ := emitTimes_of_run k s t hf hrun hc
    have hshn : t.hse.shn.toNat = s.hse.shn.toNat - n := hh ▸ Hse.emitTimes_shn n s.hse hle
    have hcount : s.hse.shn.toNat - t.hse.shn.toNat = n := by omega
    refine ⟨by omega, ?_⟩
    rw [hcount, hh, Hse.emitTimes_eq n s.hse hle]
    rfl
  · exact (step_of_not_accept s t ht (s.event_ne_accept hn)).1

/-- Settles O31: in ERROR and on an error entry nothing is pending, and on a hit the drain transfers the codeword queued. -/
theorem pushWithItsEmitStepsIsAtomic : Obligations.PushWithItsEmitStepsIsAtomic := by
  intro c cmd h hn
  cases hs : h.state with
  | error =>
    rw [Hse.push, Hse.pushAtomic, Hse.legalIn_error _ _ _ h hs, Hse.legalIn_error _ _ _ h hs, Hse.drain_of_shn_zero h hn]
  | idle =>
    have hne : h.state ≠ .error := by simp [hs]
    have hna : h.state ≠ .active := by simp [hs]
    rw [Hse.push, Hse.pushAtomic, Hse.legalIn_other _ _ _ h hne hna, Hse.legalIn_other _ _ _ h hne hna,
      Hse.drain_of_shn_zero (h.raise .badSequence cmd) hn]
  | active =>
    rw [Hse.push, Hse.pushAtomic, Hse.legalIn_same _ _ _ h hs (by simp), Hse.legalIn_same _ _ _ h hs (by simp)]
    cases hq : h.lookup cmd.sym with
    | none =>
      rw [Hse.pushActive_miss cmd h hq, Hse.drain_of_shn_zero (h.raise .missingCode cmd) hn]
    | some q =>
      rw [Hse.pushActive_hit cmd h q hq, Hse.drain_eq, Hse.pending_queue h cmd.sym q hq]
      rfl

end Sys2Proof.Machine

/-! PROOFS. The stream commands: the next state of `START`, `PUSH` and `END` in every phase (O9, O10, O11) and what they leave
unchanged (O16). -/

namespace Sys2Proof.Machine

/-! The commands outside the phase they are legal in (10_state.md R22, 60_exceptions.md R154). -/

/-- Streams do not nest (41_stream_commands.md R100). -/
theorem effect_start_active (sym : Sym) (len : Len) (code : Code) (h : Hse Config.hse) (ha : h.state = .active) :
    effect (.start sym len code) h = h.raise .badSequence ⟨0x3, sym, len, code⟩ := by
  rw [effect_start, Hse.legalIn_other _ _ _ h (by simp [ha]) (by simp [ha])]

/-- `PUSH` and `END` with no stream open (41_stream_commands.md R101, R102). -/
theorem effect_streamCommand_idle (i : Instr) (sym : Sym) (len : Len) (code : Code) (h : Hse Config.hse)
    (hi : i = .push sym len code ∨ i = .endStream sym len code) (hs : h.state = .idle) :
    effect i h = h.raise .badSequence i.toCmd := by
  have hne : h.state ≠ .error := by simp [hs]
  have hna : h.state ≠ .active := by simp [hs]
  rcases hi with rfl | rfl
  · rw [effect_push, Hse.legalIn_other _ _ _ h hne hna, toCmd_push]
  · rw [effect_endStream, Hse.legalIn_other _ _ _ h hne hna, toCmd_endStream]

/-- Settles O9: the phase decides between opening the stream, BAD_SEQUENCE and a discard. -/
theorem startOpensAStream : Obligations.StartOpensAStream := by
  refine ⟨fun sym len code s => ?_, by decide +kernel⟩
  rw [exec_eq, State.onBlock]
  cases hs : s.hse.state with
  | idle => rw [effect_start_idle sym len code s.hse hs]; rfl
  | active => rw [effect_start_active sym len code s.hse hs]; rfl
  | error => rw [effect_error_of_ne_abort _ s.hse hs (by simp [Instr.opcode])]

/-- Settles O11: the phase decides between closing the stream, BAD_SEQUENCE and a discard. -/
theorem endClosesTheStream : Obligations.EndClosesTheStream := by
  refine ⟨fun sym len code s => ?_, by decide +kernel⟩
  rw [exec_eq, State.onBlock]
  cases hs : s.hse.state with
  | idle => rw [effect_streamCommand_idle _ sym len code s.hse (.inr rfl) hs]; rfl
  | active => rw [effect_endStream_active sym len code s.hse hs]; rfl
  | error => rw [effect_error_of_ne_abort _ s.hse hs (by simp [Instr.opcode])]

/-- A `PUSH` that hits leaves its codeword pending, all of it still to leave (41_stream_commands.md R101, R110). -/
theorem effect_push_hit_pending (sym : Sym) (len : Len) (code : Code) (h : Hse Config.hse) (q : Bits) (ha : h.state = .active)
    (hq : h.lookup sym = some q) :
    (effect (.push sym len code) h).pending = q ∧ (effect (.push sym len code) h).drain.out = h.out ++ q ∧
      (effect (.push sym len code) h).shn ≠ 0 := by
  obtain ⟨hlen, hpos⟩ := Entry.codeword_length _ q hq
  have hpending := h.pending_queue sym q hq
  rw [effect_push_hit sym len code h q ha hq, Hse.drain_eq, hpending]
  refine ⟨rfl, rfl, fun h0 => ?_⟩
  rw [Hse.queue_shn] at h0
  rw [hlen, h0] at hpos
  cases hpos

/-- Settles O10: the phase and, in ACTIVE, the lookup decide between the outcomes; the bits queued on a hit are the codeword; and the
word is the encoding function's on numbers (30_encoding.md R76). -/
theorem pushQueuesTheCodeword : Obligations.PushQueuesTheCodeword := by
  refine ⟨fun sym len code s => ?_, fun sym len code s t q ha hq ht => ?_, fun sym => ?_⟩
  · rw [exec_eq, State.onBlock]
    cases hs : s.hse.state with
    | idle => rw [effect_streamCommand_idle _ sym len code s.hse (.inl rfl) hs]; rfl
    | active =>
      cases hq : s.hse.lookup sym with
      | none =>
        have hlen : (s.hse.entry sym).len.toNat = 0 := congrArg BitVec.toNat ((s.hse.lookup_eq_none_iff sym).mp hq)
        rw [effect_push_miss sym len code s.hse hs hq]
        simp only [if_pos hlen]
        rfl
      | some q =>
        obtain ⟨hlen, hpos⟩ := Entry.codeword_length _ q hq
        have hne : (s.hse.entry sym).len.toNat ≠ 0 := Nat.ne_of_gt (hlen ▸ hpos)
        rw [effect_push_hit sym len code s.hse q hs hq]
        simp only [if_neg hne, BitVec.ofNat_toNat]
        rfl
    | error => rw [effect_error_of_ne_abort _ s.hse hs (by simp [Instr.opcode])]
  · obtain rfl : s.onBlock (effect (.push sym len code)) = t := by rwa [exec_eq, Host.Outcome.next.injEq] at ht
    obtain ⟨hpending, hout, hn⟩ := effect_push_hit_pending sym len code s.hse q ha hq
    exact ⟨hpending, hout, State.event_ne_accept _ hn⟩
  · have hzeros : 0x4 ||| sym.toNat <<< 4 ||| 0 <<< 12 ||| 0 <<< 20 = 0x4 ||| sym.toNat <<< 4 := by simp
    exact (toWord_eq_ofNat (Instr.push sym 0 0).toCmd).trans (congrArg (BitVec.ofNat 275) hzeros)

/-! The frame (41_stream_commands.md R100 to R102, 60_exceptions.md R160, R162). -/

/-- Everything `START`, `PUSH` and `END` can do: leave ERROR as it is, enter ERROR, or have the effect of their own phase. -/
theorem effect_streamCommand_cases (i : Instr) (sym : Sym) (len : Len) (code : Code) (h : Hse Config.hse)
    (hi : i = .start sym len code ∨ i = .push sym len code ∨ i = .endStream sym len code) :
    (h.state = .error ∧ effect i h = h) ∨
    (h.state ≠ .error ∧ ∃ cause, effect i h = h.raise cause i.toCmd) ∨
    (h.state = .idle ∧ i = .start sym len code ∧ effect i h = h.openStream) ∨
    (h.state = .active ∧ i = .push sym len code ∧ effect i h = h.queue (h.entry sym)) ∨
    (h.state = .active ∧ i = .endStream sym len code ∧ effect i h = h.closeStream) := by
  cases hs : h.state with
  | error =>
    refine .inl ⟨rfl, effect_error_of_ne_abort i h hs ?_⟩
    rcases hi with rfl | rfl | rfl <;> simp [Instr.opcode]
  | idle =>
    rcases hi with rfl | hi
    · exact .inr (.inr (.inl ⟨rfl, rfl, effect_start_idle sym len code h hs⟩))
    · exact .inr (.inl ⟨by simp, _, effect_streamCommand_idle i sym len code h hi hs⟩)
  | active =>
    rcases hi with rfl | rfl | rfl
    · exact .inr (.inl ⟨by simp, _, effect_start_active sym len code h hs⟩)
    · cases hq : h.lookup sym with
      | none => exact .inr (.inl ⟨by simp, _, effect_push_miss sym len code h hs hq⟩)
      | some q => exact .inr (.inr (.inr (.inl ⟨rfl, rfl, effect_push_hit sym len code h q hs hq⟩)))
    · exact .inr (.inr (.inr (.inr ⟨rfl, rfl, effect_endStream_active sym len code h hs⟩)))

/-- No stream command writes the table (41_stream_commands.md R107). -/
theorem effect_streamCommand_table (i : Instr) (sym : Sym) (len : Len) (code : Code) (h : Hse Config.hse)
    (hi : i = .start sym len code ∨ i = .push sym len code ∨ i = .endStream sym len code) :
    (effect i h).table = h.table := by
  rcases effect_streamCommand_cases i sym len code h hi with ⟨-, he⟩ | ⟨-, cause, he⟩ | ⟨-, -, he⟩ | ⟨-, -, he⟩ | ⟨-, -, he⟩ <;>
    rw [he] <;> rfl

/-- Settles O16: a discard changes nothing, an error entry only its four registers, and each command's own effect only what it is
for. -/
theorem streamCommandFrame : Obligations.StreamCommandFrame := by
  intro i sym len code s t hi ht
  obtain rfl : s.onBlock (effect i) = t := by rwa [exec_eq, Host.Outcome.next.injEq] at ht
  have htable := effect_streamCommand_table i sym len code s.hse hi
  refine ⟨rfl, rfl, rfl, Hse.entry_congr htable, htable, ?_⟩
  simp only [State.onBlock_hse]
  rcases effect_streamCommand_cases i sym len code s.hse hi with ⟨hs, he⟩ | ⟨hs, cause, he⟩ | ⟨hs, rfl, he⟩ | ⟨hs, rfl, he⟩ |
    ⟨hs, rfl, he⟩
  · simp [he]
  · simp [he, hs]
  · simp [he, hs]
  · simp [he, hs]
  · simp [he, hs]

end Sys2Proof.Machine

/-! PROOFS. The control commands: the next state of `NOP`, `ABORT` and a word with a reserved opcode in every phase (O6, O12, O13)
and what they leave unchanged (O17). -/

namespace Sys2Proof.Machine

/-! A word with a reserved opcode (30_encoding.md R77, 42_control_commands.md R122). -/

/-- Everything a reserved opcode can do: a discard in ERROR (60_exceptions.md R162), otherwise ILLEGAL_OP before any check of the
phase (R158). -/
theorem Hse.reservedOp_cases {c : Config} (cmd : Cmd c) (h : Hse c) :
    (h.state = .error ∧ h.reservedOp cmd = h) ∨ (h.state ≠ .error ∧ h.reservedOp cmd = h.raise .illegalOp cmd) := by
  by_cases hs : h.state = .error
  · exact .inl ⟨hs, if_pos hs⟩
  · exact .inr ⟨hs, if_neg hs⟩

theorem effectOfWord_reserved (w : CmdWord) (h7 : 7 ≤ (Cmd.ofWord w : Cmd Config.hse).op.toNat) :
    effectOfWord w = Hse.reservedOp (Cmd.ofWord w) := by
  rcases decode_cases w with ⟨i, -, -, hlt⟩ | ⟨hd, -⟩
  · exact absurd h7 (Nat.not_le.mpr hlt)
  · rw [effectOfWord, hd]

/-- Settles O13: the word is the one the edge accepts, it moves the host's queue on, and the phase decides between ILLEGAL_OP and a
discard. -/
theorem reservedOpcodeRaisesIllegalOp : Obligations.ReservedOpcodeRaisesIllegalOp := by
  intro s w rest hr ho hn hc h7
  have haccept : s.event = .accept w := (State.event_accept_iff s w).mpr ⟨hr, hn, ho, by rw [hc]; rfl⟩
  rw [step_accept s w haccept, effectOfWord_reserved w h7, State.onBlock, State.pastCommand, hc, List.tail_cons]
  rcases Hse.reservedOp_cases (Cmd.ofWord w) s.hse with ⟨hs, he⟩ | ⟨hs, he⟩
  · rw [he, if_pos hs]
  · rw [he, if_neg hs]
    rfl

/-! `NOP` and `ABORT` (42_control_commands.md R120, R121). -/

theorem exec_nop (sym : Sym) (len : Len) (code : Code) (s : State) : exec (.nop sym len code) s = .next s := by
  rw [exec_eq, State.onBlock, effect_nop]

/-- Settles O6: `NOP` has no effect on the block, and a command acts on nothing else. -/
theorem nopDoesNothing : Obligations.NopDoesNothing :=
  ⟨exec_nop, by decide +kernel⟩

theorem exec_abort (sym : Sym) (len : Len) (code : Code) (s : State) :
    exec (.abort sym len code) s = .next (s.onBlock Hse.clearError) := by
  rw [exec_eq, State.onBlock, effect_abort, State.onBlock]

/-- Settles O12: the effect of `ABORT` in every phase is the return to IDLE, which writes four registers (60_exceptions.md R165). -/
theorem abortReturnsToIdle : Obligations.AbortReturnsToIdle := by
  refine ⟨fun sym len code s => ?_, by decide +kernel⟩
  rw [exec_abort, State.onBlock, Hse.clearError]

/-! The frame. -/

/-- Everything `NOP`, `ABORT` and a reserved opcode can do: nothing, the return to IDLE, or the error entry with ILLEGAL_OP. -/
theorem controlCommand_cases (sym : Sym) (len : Len) (code : Code) (cmd : Cmd Config.hse) (s t : State)
    (ht : exec (.nop sym len code) s = .next t ∨ exec (.abort sym len code) s = .next t ∨ execReserved cmd s = .next t) :
    t = s ∨ t = s.onBlock Hse.clearError ∨ t = s.onBlock (Hse.raise .illegalOp cmd) := by
  rw [exec_nop, exec_abort, execReserved] at ht
  simp only [Host.Outcome.next.injEq] at ht
  rcases ht with rfl | rfl | rfl
  · exact .inl rfl
  · exact .inr (.inl rfl)
  · rcases Hse.reservedOp_cases cmd s.hse with ⟨-, he⟩ | ⟨-, he⟩ <;> simp [State.onBlock, he]

/-- Settles O17: the return to IDLE and the error entry write `STATE`, `ERR`, `ERROP` and `ERRSYM` alone, and `NOP` does neither. -/
theorem controlCommandFrame : Obligations.ControlCommandFrame := by
  intro sym len code cmd s t ht
  have hnop : exec (.nop sym len code) s = .next t → t.hse.state = s.hse.state ∧ t.hse.err = s.hse.err ∧
      t.hse.errop = s.hse.errop ∧ t.hse.errsym = s.hse.errsym := fun hn => by
    obtain rfl : s = t := by rwa [exec_nop, Host.Outcome.next.injEq] at hn
    exact ⟨rfl, rfl, rfl, rfl⟩
  rcases controlCommand_cases sym len code cmd s t ht with rfl | rfl | rfl <;>
    exact ⟨rfl, rfl, rfl, Hse.entry_congr rfl, rfl, rfl, rfl, rfl, rfl, rfl, rfl, hnop⟩

end Sys2Proof.Machine

/-! PROOFS. The host's own stages: the FrequencyCounter counts occurrences (O49), and the codewords of a tree are prefix-free,
because the two branches of every node differ in one bit (O50). -/

namespace Sys2Proof.Machine

/-! FrequencyCounter (43_host_side_pipeline.md R131, R132). -/

theorem countFrequencies_concat (xs : List Sym) (y : Sym) :
    countFrequencies (xs ++ [y]) = addOccurrence y (countFrequencies xs) :=
  List.foldl_append

/-- An entry after one more occurrence of `y` is another symbol's, as it was, or that of `y`, new or one higher. -/
theorem mem_addOccurrence (x y : Sym) (n : Nat) (t : FrequencyTable) (ht : (t.map Prod.fst).Nodup)
    (h : (x, n) ∈ addOccurrence y t) :
    x ≠ y ∧ (x, n) ∈ t ∨ x = y ∧ y ∉ t.map Prod.fst ∧ n = 1 ∨ x = y ∧ ∃ m, (y, m) ∈ t ∧ n = m + 1 := by
  induction t with
  | nil =>
    obtain ⟨rfl, rfl⟩ : x = y ∧ n = 1 := by simpa [addOccurrence] using h
    exact .inr (.inl ⟨rfl, List.not_mem_nil, rfl⟩)
  | cons e t ih =>
    obtain ⟨z, m⟩ := e
    obtain ⟨hz, ht⟩ := List.nodup_cons.mp ht
    rw [addOccurrence] at h
    split at h
    · next hyz =>
      subst hyz
      rcases List.mem_cons.mp h with h | h
      · cases h
        exact .inr (.inr ⟨rfl, m, List.mem_cons_self, rfl⟩)
      · have hx : x ∈ t.map Prod.fst := List.mem_map_of_mem h
        exact .inl ⟨fun hxy => hz (hxy ▸ hx), List.mem_cons_of_mem _ h⟩
    · next hyz =>
      rcases List.mem_cons.mp h with h | h
      · cases h
        exact .inl ⟨Ne.symm hyz, List.mem_cons_self⟩
      · rcases ih ht h with ⟨hx, hm⟩ | ⟨hx, hy, hn⟩ | ⟨hx, k, hk, hn⟩
        · exact .inl ⟨hx, List.mem_cons_of_mem _ hm⟩
        · exact .inr (.inl ⟨hx, List.not_mem_cons_of_ne_of_not_mem hyz hy, hn⟩)
        · exact .inr (.inr ⟨hx, k, List.mem_cons_of_mem _ hk, hn⟩)

/-- R132: an entry is the number of occurrences of its symbol. -/
theorem eq_count_of_mem_countFrequencies (input : List Sym) (x : Sym) (n : Nat) (h : (x, n) ∈ countFrequencies input) :
    n = input.count x := by
  induction input using List.reverseRecOn generalizing x n with
  | nil => cases h
  | append_singleton xs y ih =>
    rw [countFrequencies_concat] at h
    rcases mem_addOccurrence x y n _ (countFrequencies_nodup xs) h with ⟨hx, hm⟩ | ⟨rfl, hx, rfl⟩ | ⟨rfl, m, hm, rfl⟩
    · simp [ih x n hm, Ne.symm hx]
    · have hzero : xs.count x = 0 :=
        List.count_eq_zero.mpr fun hmem => hx ((mem_countFrequencies_symbols x xs).mpr hmem)
      simp [hzero]
    · simp [ih x m hm]

/-- Settles O49: the entries are occurrence counts, and the symbols that have one are those of the input. -/
theorem frequenciesAreOccurrenceCounts : Obligations.FrequenciesAreOccurrenceCounts := by
  refine fun input => ⟨countFrequencies_nodup input, fun x n => ⟨fun h => ?_, fun ⟨hn, hpos⟩ => ?_⟩⟩
  · have hn := eq_count_of_mem_countFrequencies input x n h
    have hx : x ∈ input := (mem_countFrequencies_symbols x input).mp (List.mem_map_of_mem h)
    exact ⟨hn, hn ▸ List.count_pos_iff.mpr hx⟩
  · have hx : x ∈ input := List.count_pos_iff.mp (hn ▸ hpos)
    obtain ⟨⟨_, m⟩, hm, rfl⟩ := List.mem_map.mp ((mem_countFrequencies_symbols x input).mpr hx)
    rwa [hn, ← eq_count_of_mem_countFrequencies input _ m hm]

/-! CodeTableBuilder (43_host_side_pipeline.md R139 to R141). -/

/-- Neither bit sequence is the beginning of the other. -/
def Bits.apart (a b : Bits) : Prop := ¬ a <+: b ∧ ¬ b <+: a

/-- Sequences that go apart after `acc` stay apart. -/
theorem Bits.apart_of_branches (acc a b : Bits) (bit : Bool) (ha : acc ++ [bit] <+: a) (hb : acc ++ [!bit] <+: b) :
    Bits.apart a b := by
  have hbranch : ∀ c : Bits, acc ++ [bit] <+: c → ¬ acc ++ [!bit] <+: c := fun c hc hc' => by
    have heq := (List.prefix_of_prefix_length_le hc hc' (by simp)).eq_of_length (by simp)
    simp at heq
  exact ⟨fun h => hbranch b (ha.trans h) hb, fun h => hbranch a ha (hb.trans h)⟩

/-- The traversal only adds bits behind those accumulated (R139). -/
theorem TreeNode.prefix_codewords (ch : BuildChoices) (t : TreeNode) (acc : Bits) :
    ∀ e ∈ t.codewords ch acc, acc <+: e.2 := by
  induction t generalizing acc with
  | leaf s n => simp [TreeNode.codewords]
  | node f l r ihl ihr =>
    intro e he
    rcases List.mem_append.mp he with he | he
    · exact (List.prefix_append ..).trans (ihl _ e he)
    · exact (List.prefix_append ..).trans (ihr _ e he)

/-- Two leaves lie in one branch, or in the two branches of a node, whose bits differ. -/
theorem TreeNode.codewords_apart (ch : BuildChoices) (t : TreeNode) (acc : Bits) :
    (t.codewords ch acc).Pairwise fun e f => Bits.apart e.2 f.2 := by
  induction t generalizing acc with
  | leaf s n => exact List.pairwise_singleton _ _
  | node f l r ihl ihr =>
    exact List.pairwise_append.mpr ⟨ihl _, ihr _, fun a ha b hb =>
      Bits.apart_of_branches acc a.2 b.2 ch.leftBit (l.prefix_codewords ch _ a ha) (r.prefix_codewords ch _ b hb)⟩

/-- R141: the table of a tree is prefix-free. -/
theorem buildCodeTable_apart (ch : BuildChoices) (t : TreeNode) :
    (buildCodeTable ch t).Pairwise fun e f => Bits.apart e.2 f.2 := by
  cases t with
  | leaf s n => exact List.pairwise_singleton _ _
  | node f l r => exact TreeNode.codewords_apart ch (.node f l r) []

theorem codeTableOf_apart (ch : BuildChoices) (input : List Sym) (t : CodeTable) (h : codeTableOf ch input = .ok t) :
    t.Pairwise fun e f => Bits.apart e.2 f.2 := by
  obtain ⟨root, rfl, -⟩ := codeTableOf_ok ch input t h
  exact buildCodeTable_apart ch root

/-- R140: a tree with no second leaf is a leaf, whose codeword is the lone bit. -/
theorem buildCodeTable_lone (ch : BuildChoices) (t : TreeNode) (h : t.leaves.length ≤ 1) :
    ∀ e ∈ buildCodeTable ch t, e.2 = [ch.loneBit] := by
  cases t with
  | leaf s n => simp [buildCodeTable]
  | node f l r =>
    have hl := l.leaves_length_pos
    have hr := r.leaves_length_pos
    rw [TreeNode.leaves, List.length_append] at h
    omega

theorem codeTableOf_lone (ch : BuildChoices) (input : List Sym) (t : CodeTable) (h : codeTableOf ch input = .ok t)
    (hone : ∀ x ∈ input, ∀ y ∈ input, x = y) : ∀ e ∈ t, e.2 = [ch.loneBit] := by
  have hmem := mem_codeTableOf_symbols ch input t h
  have hnodup := codeTableOf_nodup ch input t h
  obtain ⟨root, rfl, -⟩ := codeTableOf_ok ch input t h
  rw [buildCodeTable_symbols] at hmem hnodup
  obtain ⟨x, hx⟩ := List.exists_mem_of_length_pos root.leaves_length_pos
  have hsame : root.leaves = List.replicate root.leaves.length x :=
    List.eq_replicate_of_mem fun y hy => hone y ((hmem y).mp hy) x ((hmem x).mp hx)
  rw [hsame] at hnodup
  exact buildCodeTable_lone ch root (List.nodup_replicate.mp hnodup)

/-- R133: an empty input has no leaf, whatever the order of iteration. -/
theorem codeTableOf_nil (ch : BuildChoices) : codeTableOf ch [] = .error .invalidInput := by
  have hempty : ch.freqOrder (countFrequencies []) = [] := (ch.freqOrder_perm []).eq_nil
  rw [codeTableOf, hempty]
  rfl

/-- Settles O50: the leaves are the input's distinct symbols, each once, and two leaves part at a node. -/
theorem codeTableIsPrefixFreeAndCovering : Obligations.CodeTableIsPrefixFreeAndCovering := by
  refine ⟨codeTableOf_nil, fun ch input hinput => ?_⟩
  obtain ⟨t, ht⟩ := codeTableOf_answers ch input hinput
  exact ⟨t, ht, codeTableOf_nodup ch input t ht, mem_codeTableOf_symbols ch input t ht,
    fun e he => List.ne_nil_of_length_pos (codeTableOf_codeword_pos ch input t ht e he),
    codeTableOf_apart ch input t ht, codeTableOf_lone ch input t ht⟩

end Sys2Proof.Machine

/-! PROOFS. Errors (60_exceptions.md): what an error entry writes (O18), the order of the checks (O19), the discard of commands in
ERROR (O20), the first error wins (O21) and INVALID_INPUT is the host's alone (O22). -/

namespace Sys2Proof.Machine

section
variable {c : Config}

/-- The causes that a command can raise, codes 2 to 5 of `ERR` (60_exceptions.md R152 to R155). -/
def Cause.raisedByCommand (e : Cause) : Prop := e = .missingCode ∨ e = .illegalOp ∨ e = .badSequence ∨ e = .badLength

theorem Cause.ne_invalidInput_of_raisedByCommand (e : Cause) (he : e.raisedByCommand) : e ≠ .invalidInput := by
  rcases he with rfl | rfl | rfl | rfl <;> simp

/-- What an accepted word can do to the recorded error: `ABORT` clears it, an error entry from another phase writes it, and every
other outcome leaves it alone and does not take the block into ERROR or out of it (60_exceptions.md R156, R160, R165). -/
theorem Hse.accept_error_cases (w : BitVec c.cmdW) (h : Hse c) :
    ((Cmd.ofWord w).op = 0x6 ∧ h.accept w = h.clearError) ∨
    (h.state ≠ .error ∧ ∃ cause : Cause, cause.raisedByCommand ∧ h.accept w = h.raise cause (Cmd.ofWord w)) ∨
    (((h.accept w).state = .error ↔ h.state = .error) ∧ (h.accept w).err = h.err ∧ (h.accept w).errop = h.errop ∧
      (h.accept w).errsym = h.errsym) := by
  rcases h.accept_cases w with ⟨-, he⟩ | ⟨-, -, -, he⟩ | habort | ⟨hs, -, he⟩ | ⟨hs, -, he⟩ | ⟨hs, -, he⟩ | ⟨-, -, he⟩ |
    ⟨-, -, -, he⟩ | ⟨hs, -, -, he⟩ | ⟨hs, -, he⟩ | ⟨hs, -, -, he⟩ | ⟨-, -, -, he⟩ | ⟨hs, -, he⟩
  · exact .inr (.inr (by simp [he]))
  · exact .inr (.inr (by simp [he]))
  · exact .inl habort
  · exact .inr (.inl ⟨hs, _, .inr (.inl rfl), he⟩)
  · exact .inr (.inl ⟨by simp [hs], _, .inr (.inr (.inl rfl)), he⟩)
  · exact .inr (.inl ⟨by simp [hs], _, .inr (.inr (.inl rfl)), he⟩)
  · exact .inr (.inr (by simp [he]))
  · exact .inr (.inr (by simp [he]))
  · exact .inr (.inl ⟨by simp [hs], _, .inr (.inr (.inr rfl)), he⟩)
  · exact .inr (.inr (by simp [he, hs]))
  · exact .inr (.inl ⟨by simp [hs], _, .inl rfl, he⟩)
  · exact .inr (.inr (by simp [he]))
  · exact .inr (.inr (by simp [he, hs]))

/-- `ABORT` in every phase (42_control_commands.md R121). -/
theorem Hse.accept_abort (w : BitVec c.cmdW) (h : Hse c) (hop : (Cmd.ofWord w).op = 0x6) : h.accept w = h.clearError := by
  simp [Hse.accept, hop]

/-- R162: a word accepted in ERROR, other than `ABORT`, is discarded. -/
theorem Hse.accept_discard (w : BitVec c.cmdW) (h : Hse c) (hs : h.state = .error) (hop : (Cmd.ofWord w).op ≠ 0x6) :
    h.accept w = h := by
  rcases h.accept_cases w with ⟨-, he⟩ | ⟨-, -, -, he⟩ | ⟨h6, -⟩ | ⟨hne, -⟩ | ⟨ho, -⟩ | ⟨ho, -⟩ | ⟨ho, -⟩ | ⟨ho, -⟩ |
    ⟨ho, -⟩ | ⟨ho, -⟩ | ⟨ho, -⟩ | ⟨ho, -⟩ | ⟨ho, -⟩
  · exact he
  · exact he
  · exact absurd h6 hop
  · exact absurd hs hne
  all_goals cases hs.symm.trans ho

theorem lengthOk_eq_false_iff (len : BitVec c.lenW) : lengthOk c len = false ↔ len.toNat = 0 ∨ c.lMax < len.toNat := by
  rw [← Bool.not_eq_true, lengthOk_iff]
  omega

end

/-- Settles O18: a reset, a transfer and a quiet edge enter no error, so a word was accepted, and it raised. -/
theorem errorEntryWritesFourRegisters : Obligations.ErrorEntryWritesFourRegisters := by
  intro s t ht hs hterr
  rcases step_next_cases s t ht with ⟨-, rfl⟩ | ⟨-, -, rfl⟩ | ⟨w, rest, -, hn, hc, hr, -, -, hh⟩ | ⟨-, rfl⟩
  · cases hterr
  · exact absurd hterr hs
  · refine ⟨w, rest, hc, hr, hn, ?_⟩
    rw [hh] at hterr ⊢
    rcases s.hse.accept_error_cases w with ⟨-, he⟩ | ⟨-, cause, hcause, he⟩ | ⟨hiff, -⟩
    · rw [he] at hterr
      cases hterr
    · rw [he]
      exact ⟨rfl, hcause⟩
    · exact absurd (hiff.mp hterr) hs
  · exact absurd hterr hs

/-- Settles O19: every outcome of an accepted word stands at its place in the order of the checks. -/
theorem errorPriorityOrder : Obligations.ErrorPriorityOrder := by
  intro s t w hevent ht op len raises
  obtain ⟨-, -, hh⟩ := step_of_accept_word s t w ht hevent
  have hop : ∀ k : Opcode, (Cmd.ofWord w : Cmd Config.hse).op = k → op = k.toNat := fun k hk => congrArg BitVec.toNat hk
  have hraise : ∀ cause, t.hse = s.hse.raise cause (Cmd.ofWord w) → raises cause := fun _ hr => hr
  have hbad : lengthOk Config.hse (Cmd.ofWord w).len = false ↔ len = 0 ∨ 255 < len := lengthOk_eq_false_iff _
  rcases s.hse.accept_cases w with ⟨h0, he⟩ | ⟨hs, h0, h6, he⟩ | ⟨h6, he⟩ | ⟨hs, h7, he⟩ | ⟨hs, h123, he⟩ | ⟨hs, h45, he⟩ |
    ⟨hs, h1, he⟩ | ⟨hs, h2, hl, he⟩ | ⟨hs, h2, hl, he⟩ | ⟨hs, h3, he⟩ | ⟨hs, h4, hl, he⟩ | ⟨hs, h4, hl, he⟩ | ⟨hs, h5, he⟩ <;>
    rw [he] at hh
  · simp [hop _ h0, hh]
  · have hop0 : op ≠ 0 := fun hk => h0 (BitVec.eq_of_toNat_eq hk)
    have hop6 : op ≠ 6 := fun hk => h6 (BitVec.eq_of_toNat_eq hk)
    simp [hop0, hop6, hs, hh]
  · simp only [hop _ h6]
    exact hh
  · have hop7 : 7 ≤ op := h7
    rw [if_neg (by omega), if_neg (by omega), if_neg hs, if_pos hop7]
    exact hraise _ hh
  · rcases h123 with hk | hk | hk <;> simp [hop _ hk, hs, hraise _ hh]
  · rcases h45 with hk | hk <;> simp [hop _ hk, hs, hraise _ hh]
  · simp [hop _ h1, hs, hh]
  · have hlen : ¬ (len = 0 ∨ 255 < len) := by simp [← hbad, hl]
    simp [hop _ h2, hs, hlen, hh]
  · have hlen : len = 0 ∨ 255 < len := hbad.mp hl
    simp [hop _ h2, hs, hlen, hraise _ hh]
  · simp [hop _ h3, hs, hh]
  · have hempty : (s.hse.entry (w.extractLsb' 4 8)).len.toNat = 0 := congrArg BitVec.toNat hl
    simp [hop _ h4, hs, hempty, hraise _ hh]
  · have hhit : (s.hse.entry (w.extractLsb' 4 8)).len.toNat ≠ 0 := fun h0 => hl (BitVec.eq_of_toNat_eq h0)
    simp [hop _ h4, hs, hhit, hh]
  · simp [hop _ h5, hs, hh]

/-- Settles O20: by the invariant no bit is pending in ERROR, so that no bit leaves and `cmd_ready` is 1. -/
theorem commandsAreDiscardedInError : Obligations.CommandsAreDiscardedInError := by
  refine ⟨fun s t w hs he hop ht => ?_, fun s t w _ he hop ht => ?_, fun s hi hs => ?_⟩
  · obtain ⟨-, hc, hh⟩ := step_of_accept_word s t w ht he
    exact ⟨hh.trans (s.hse.accept_discard w hs hop), hc⟩
  · obtain ⟨-, -, hh⟩ := step_of_accept_word s t w ht he
    exact hh.trans (s.hse.accept_abort w hop)
  · obtain ⟨-, -, ⟨-, hactive⟩, -⟩ := hi
    have hn : s.hse.shn = 0 := not_not.mp fun hne => by cases hs.symm.trans (hactive hne)
    refine ⟨fun he => ((State.event_transfer_iff s).mp he).2.1 hn, fun hr ho w rest hc => ?_⟩
    exact (State.event_accept_iff s w).mpr ⟨hr, hn, ho, by rw [hc]; rfl⟩

/-- Settles O21: an accepted word clears the recorded error if it is `ABORT`, and is discarded if not. -/
theorem firstErrorWins : Obligations.FirstErrorWins := by
  intro s t hs ht
  rcases step_next_cases s t ht with ⟨he, rfl⟩ | ⟨-, -, rfl⟩ | ⟨w, -, he, -, -, -, -, -, hh⟩ | ⟨-, rfl⟩
  · exact .inr ⟨rfl, rfl, rfl, rfl, .inl he⟩
  · exact .inl ⟨hs, rfl, rfl, rfl⟩
  · by_cases hop : w.extractLsb' 0 4 = 0x6
    · rw [s.hse.accept_abort w hop] at hh
      exact .inr (by rw [hh]; exact ⟨rfl, rfl, rfl, rfl, .inr ⟨w, he, hop⟩⟩)
    · rw [s.hse.accept_discard w hs hop] at hh
      exact .inl (by rw [hh]; exact ⟨hs, rfl, rfl, rfl⟩)
  · exact .inl ⟨hs, rfl, rfl, rfl⟩

/-- Settles O22: reset and `ABORT` write no cause, and no command raises INVALID_INPUT. -/
theorem invalidInputIsNeverRaised : Obligations.InvalidInputIsNeverRaised := by
  intro s t ht hinvalid
  rcases step_next_cases s t ht with ⟨-, rfl⟩ | ⟨-, -, rfl⟩ | ⟨w, -, -, -, -, -, -, -, hh⟩ | ⟨-, rfl⟩
  · cases hinvalid
  · exact hinvalid
  · rw [hh] at hinvalid
    rcases s.hse.accept_error_cases w with ⟨-, he⟩ | ⟨-, cause, hcause, he⟩ | ⟨-, herr, -⟩
    · rw [he] at hinvalid
      cases hinvalid
    · rw [he] at hinvalid
      exact absurd hinvalid (cause.ne_invalidInput_of_raisedByCommand hcause)
    · exact herr.symm.trans hinvalid
  · exact hinvalid

end Sys2Proof.Machine

/-! PROOFS. Edges and the two handshakes (70_reset_and_hazards.md): a step is one edge of the block (O26) and runs the decoded command
(O25), the command interlock (O27), the output handshake (O28), the table frozen during a stream (O39) and the stuck sink (O40). -/

namespace Sys2Proof.Machine

/-- Settles O26: the block moves by one edge, and the queue moves where the interlock lets the host's offer through; where the host
has nothing to offer there is nothing to take. -/
theorem stepIsOneEdgeOfTheBlock : Obligations.StepIsOneEdgeOfTheBlock := by
  intro s
  obtain ⟨t, ht⟩ := step_answers s
  refine ⟨t, ht, step_hse s t ht, ?_⟩
  rcases step_next_cases s t ht with ⟨he, rfl⟩ | ⟨-, hn, rfl⟩ | ⟨w, rest, he, hn, hc, hr, hedges, hlater, -⟩ | ⟨he, rfl⟩
  · have hrst : s.now.rst = true := (State.event_reset_iff s).mp he
    exact ⟨rfl, rfl, by simp [hrst]⟩
  · exact ⟨rfl, rfl, (if_neg fun ⟨_, _, h0⟩ => hn h0).symm⟩
  · obtain ⟨hrst, -, hoffer, -⟩ := (State.event_accept_iff s w).mp he
    exact ⟨hedges, hlater, by rw [if_pos ⟨hrst, hoffer, hn⟩, hr, hc, List.tail_cons]⟩
  · refine ⟨rfl, rfl, ?_⟩
    split_ifs with hready
    · obtain ⟨hrst, hoffer, hn⟩ := hready
      cases hc : s.cmds with
      | nil => exact hc
      | cons w rest =>
        have haccept : s.event = .accept w := (State.event_accept_iff s w).mpr ⟨hrst, hn, hoffer, by rw [hc]; rfl⟩
        cases he.symm.trans haccept
    · rfl

/-- Settles O25: the offered word is the one the edge accepts, and its command runs past the edge. -/
theorem stepRunsTheDecodedCommand : Obligations.StepRunsTheDecodedCommand := by
  intro s w rest i hrst hoffer hn hc hd
  have haccept : s.event = .accept w := (State.event_accept_iff s w).mpr ⟨hrst, hn, hoffer, by rw [hc]; rfl⟩
  have hpast : s.pastCommand = { s with cmds := rest, edges := s.edges.tail } := by rw [State.pastCommand, hc, List.tail_cons]
  simp only [step, haccept, hd, hpast]

section
variable {c : Config}

/-! The two handshakes at the ports (70_reset_and_hazards.md R188, R190). -/

theorem Hse.cmdReady_iff (rst : Bool) (h : Hse c) : h.cmdReady rst = true ↔ rst = false ∧ h.shn = 0 := by
  simp [Hse.cmdReady]

theorem Hse.outValid_iff (rst : Bool) (h : Hse c) : h.outValid rst = true ↔ rst = false ∧ h.shn ≠ 0 := by
  simp [Hse.outValid]

/-- A bit moves at an edge exactly when the sink takes the bit that is offered. -/
theorem Hse.event_transfer_iff_outValid (p : PortsIn c) (h : Hse c) :
    h.event p = .transfer ↔ h.outValid p.rst = true ∧ p.outReady = true := by
  rw [h.event_transfer_iff, h.outValid_iff, and_assoc]

theorem Hse.edge_of_transfer (p : PortsIn c) (h : Hse c) (he : h.event p = .transfer) : h.edge p = h.emit := by
  rw [Hse.edge, he]

/-- A command is executed without a bit leaving: the bits of a `PUSH` leave at later edges (41_stream_commands.md R110). -/
theorem Hse.accept_out (w : BitVec c.cmdW) (h : Hse c) : (h.accept w).out = h.out := by
  rcases h.accept_cases w with ⟨-, he⟩ | ⟨-, -, -, he⟩ | ⟨-, he⟩ | ⟨-, -, he⟩ | ⟨-, -, he⟩ | ⟨-, -, he⟩ | ⟨-, -, he⟩ |
    ⟨-, -, -, he⟩ | ⟨-, -, -, he⟩ | ⟨-, -, he⟩ | ⟨-, -, -, he⟩ | ⟨-, -, -, he⟩ | ⟨-, -, he⟩ <;> rw [he] <;> rfl

/-- Only a transfer adds to `OUT`, and only a reset empties it (10_state.md R31). -/
theorem Hse.edge_out_of_not_transfer (p : PortsIn c) (h : Hse c) (hr : p.rst = false) (hno : h.event p ≠ .transfer) :
    (h.edge p).out = h.out := by
  cases he : h.event p with
  | reset => simp [(h.event_reset_iff p).mp he] at hr
  | transfer => exact absurd he hno
  | accept w => rw [Hse.edge, he, h.accept_out w]
  | quiet => rw [Hse.edge, he]

/-- While the sink does not take the bit that is offered, nothing changes. -/
theorem Hse.edge_of_waiting (p : PortsIn c) (h : Hse c) (hv : h.outValid p.rst = true) (hready : p.outReady = false) :
    h.edge p = h := by
  obtain ⟨hr, hn⟩ := (h.outValid_iff p.rst).mp hv
  cases he : h.event p with
  | reset => simp [(h.event_reset_iff p).mp he] at hr
  | transfer => simp [((h.event_transfer_iff p).mp he).2.2] at hready
  | accept w => exact absurd ((h.event_accept_iff p w).mp he).2.1 hn
  | quiet => rw [Hse.edge, he]

/-- The table is written in IDLE only (70_reset_and_hazards.md R194). -/
theorem Hse.accept_table_of_not_idle (w : BitVec c.cmdW) (h : Hse c) (hs : h.state ≠ .idle) :
    (h.accept w).table = h.table := by
  rcases h.accept_cases w with ⟨-, he⟩ | ⟨-, -, -, he⟩ | ⟨-, he⟩ | ⟨-, -, he⟩ | ⟨-, -, he⟩ | ⟨-, -, he⟩ | ⟨hi, -⟩ |
    ⟨hi, -⟩ | ⟨-, -, -, he⟩ | ⟨-, -, he⟩ | ⟨-, -, -, he⟩ | ⟨-, -, -, he⟩ | ⟨-, -, he⟩
  case inr.inr.inr.inr.inr.inr.inl | inr.inr.inr.inr.inr.inr.inr.inl => exact absurd hi hs
  all_goals rw [he] <;> rfl

/-- `CLRT` and `LOAD` accepted in ACTIVE (40_table_commands.md R90, R91). -/
theorem Hse.accept_tableCommand_active (w : BitVec c.cmdW) (h : Hse c) (ha : h.state = .active)
    (hop : (Cmd.ofWord w).op = 0x1 ∨ (Cmd.ofWord w).op = 0x2) : h.accept w = h.raise .badSequence (Cmd.ofWord w) := by
  have hne : h.state ≠ .error := by simp [ha]
  have hni : h.state ≠ .idle := by simp [ha]
  rcases hop with hop | hop
  · rw [← Hse.legalIn_other .idle (Cmd.ofWord w) Hse.emptyTable h hne hni]
    simp [Hse.accept, hop, Hse.clearTable]
  · simp [Hse.accept, hop, Hse.loadEntry, Hse.legalIn_other .idle (Cmd.ofWord w) _ h hne hni]

end

/-- Settles O27: `cmd_ready` is the condition under which the edge accepts the word that is offered. -/
theorem commandInterlock : Obligations.CommandInterlock := by
  intro c p h
  refine ⟨?_, fun w => ?_, fun hn w he => ?_⟩
  · rw [Bool.eq_iff_iff]
    simp [Hse.ports, h.cmdReady_iff, h.shn_toNat_zero]
  · rw [h.event_accept_iff, ← and_assoc, and_comm]
    exact and_congr_right fun _ => (h.cmdReady_iff p.rst).symm
  · exact hn (h.shn_toNat_zero.mpr ((h.event_accept_iff p w).mp he).2.1)

/-- Settles O28: with `out_valid` and `out_ready` at 1 the edge is one emit step; otherwise no bit leaves, and a bit the sink does not
take holds every register. -/
theorem outputHandshake : Obligations.OutputHandshake := by
  intro c p h
  refine ⟨?_, fun hv => if_pos hv, fun hr => ?_, fun hr hn hready => ?_, fun hv hready => ?_⟩
  · rw [Bool.eq_iff_iff]
    simp [Hse.ports, h.outValid_iff, h.shn_toNat_zero]
  · by_cases he : h.event p = .transfer
    · obtain ⟨hv, hready⟩ := (h.event_transfer_iff_outValid p).mp he
      have hoffer : (h.ports p.rst).outValid = true := hv
      rw [h.edge_of_transfer p he, hoffer, hready]
      rfl
    · have hno : ¬ ((h.ports p.rst).outValid && p.outReady) = true := fun hb =>
        he ((h.event_transfer_iff_outValid p).mpr (Bool.and_eq_true_iff.mp hb))
      rw [h.edge_out_of_not_transfer p hr he, if_neg hno, List.append_nil]
  · have hne : h.shn ≠ 0 := fun h0 => hn (h.shn_toNat_zero.mpr h0)
    rw [h.edge_of_transfer p ((h.event_transfer_iff p).mpr ⟨hr, hne, hready⟩), Hse.emit_shn, h.shn_pred hne]
  · rw [h.edge_of_waiting p hv hready]

/-- Settles O39: of the edges without a reset only an accepted word could write the table, and in ACTIVE none does; `CLRT` and
`LOAD` raise there, and an error entry is how a stream fails. -/
theorem tableIsFrozenDuringAStream : Obligations.TableIsFrozenDuringAStream := by
  refine ⟨fun s t ha hr ht => ?_, fun s w ha he hop => ?_⟩
  · rcases step_next_cases s t ht with ⟨he, -⟩ | ⟨-, -, rfl⟩ | ⟨w, -, -, -, -, -, -, -, hh⟩ | ⟨-, rfl⟩
    · exact absurd ((State.event_reset_iff s).mp he) (by simp [hr])
    · rfl
    · rw [hh, s.hse.accept_table_of_not_idle w (by simp [ha])]
    · rfl
  · obtain ⟨t, ht⟩ := step_answers s
    obtain ⟨-, -, hh⟩ := step_of_accept_word s t w ht he
    rw [s.hse.accept_tableCommand_active w ha hop] at hh
    exact ⟨t, ht, by rw [hh]; rfl, by rw [s.streamEnd_of_step t ht, he, hh]; simp [Hse.streamEnd, ha]⟩

/-! The stuck sink (70_reset_and_hazards.md R196). -/

theorem State.stuck_now (s : State) (hs : s.stuck) : s.now.rst = false ∧ s.now.outReady = false := by
  obtain ⟨-, hedges, hlater⟩ := hs
  cases he : s.edges with
  | nil => simpa [State.now, he] using hlater
  | cons e rest => simpa [State.now, he] using hedges e (by simp [he])

/-- An edge of a stuck machine passes and changes nothing else, so the machine stays stuck. -/
theorem State.stuck_step (s t : State) (hs : s.stuck) (ht : step s = .next t) :
    t.stuck ∧ t.hse = s.hse ∧ t.cmds = s.cmds := by
  obtain ⟨hrst, hready⟩ := s.stuck_now hs
  obtain ⟨hn, hedges, hlater⟩ := hs
  rcases step_next_cases s t ht with ⟨he, -⟩ | ⟨he, -⟩ | ⟨w, -, -, h0, -⟩ | ⟨-, rfl⟩
  · exact absurd ((State.event_reset_iff s).mp he) (by simp [hrst])
  · exact absurd ((State.event_transfer_iff s).mp he).2.2 (by simp [hready])
  · exact absurd h0 hn
  · exact ⟨⟨hn, fun e he => hedges e (List.mem_of_mem_tail he), hlater⟩, rfl, rfl⟩

theorem State.stuck_run (k : Nat) (s t : State) (hs : s.stuck) (hrun : Host.Core.run Sys2Proof.core k s = .next t) :
    t.stuck ∧ t.hse = s.hse ∧ t.cmds = s.cmds := by
  refine run_keeps (fun u => u.stuck ∧ u.hse = s.hse ∧ u.cmds = s.cmds) ?_ k s t ⟨hs, rfl, rfl⟩ hrun
  rintro u v ⟨hu, hh, hc⟩ huv
  obtain ⟨hv, hhv, hcv⟩ := u.stuck_step v hu huv
  exact ⟨hv, hhv.trans hh, hcv.trans hc⟩

/-- Settles O40: a stuck run keeps the block and the queue, and a pending bit keeps the interlock closed; the reset event asks
nothing of the sink. -/
theorem stuckSinkBlocksAllButReset : Obligations.StuckSinkBlocksAllButReset := by
  refine ⟨fun k s hs => ?_, fun s levels _ hl => ?_⟩
  · obtain ⟨t, hrun⟩ := run_answers k s
    obtain ⟨⟨hn, -⟩, hh, hc⟩ := s.stuck_run k t hs hrun
    have hclosed : t.hse.cmdReady t.now.rst = false :=
      Bool.eq_false_iff.mpr fun hopen => hn ((t.hse.cmdReady_iff t.now.rst).mp hopen).2
    exact ⟨t, hrun, hh, hc, hclosed, t.event_ne_accept hn⟩
  · exact ⟨_, resetWinsAtAnyEdge.1 { s with edges := levels :: s.edges } hl, rfl⟩

end Sys2Proof.Machine
